-- ==== Sys2Proof/Word.lean ====
section
/-! DEFINITION. The word and byte types (spec/00_scope.md R6, R8, R13). Every addition of SHA-1 is `BitVec`
addition on `Word`, which is the `+32` of R9. -/

namespace Sys2Proof

/-- A 32-bit word, bit 0 least significant (00_scope.md R6, R8). -/
abbrev Word := BitVec 32

/-- A byte of a message (00_scope.md R13). -/
abbrev Byte := BitVec 8

end Sys2Proof
end

