-- ==== Sys2Proof/Syntax.lean ====
section
/-! DEFINITION. The seven commands, one constructor for each row of spec/opcode_table.json (30_encoding.md R76). -/

namespace Sys2Proof

/-- A decoded command word. All operands but NB are implicit registers (30_encoding.md R77). -/
inductive Instr where
  /-- SHA_INIT (40_sha1.md R106). -/
  | shaInit
  /-- SHA_BLOCK (40_sha1.md R107). -/
  | shaBlock
  /-- SHA_FINAL (40_sha1.md R108); `nb` is NB, the number of message bytes in MSG, 0 to 63. -/
  | shaFinal (nb : Nat)
  /-- SHA_COMPRESS (40_sha1.md R109). -/
  | shaCompress
  /-- MODEXP (41_modexp.md R132). -/
  | modexp
  /-- DIGEST_TO_BASE (41_modexp.md R133). -/
  | digestToBase
  /-- CMP_DIGEST (41_modexp.md R134). -/
  | cmpDigest
deriving DecidableEq, Repr

end Sys2Proof
end

