-- ==== Sys2Proof/WellFormed.lean ====
section
/-! DEFINITION. Which command terms a command word can carry (30_encoding.md R75, R77). -/

namespace Sys2Proof

/-- The one check: NB is a 6-bit field, so at most 63 (30_encoding.md R77). -/
def Instr.wf : Instr → Bool
  | .shaInit => true
  | .shaBlock => true
  | .shaFinal nb => decide (nb ≤ 63)
  | .shaCompress => true
  | .modexp => true
  | .digestToBase => true
  | .cmpDigest => true

end Sys2Proof
end

