-- ==== Sys2Proof/Decode.lean ====
section
/-! DEFINITION. The decoder, total on all 2^32 words (30_encoding.md R75, R78, R79), and after it the encoder
(R76, R87). -/

namespace Sys2Proof

/-- Why a word is illegal, by the letter of 30_encoding.md R78. Every one completes with ILLEGAL_CMD. -/
inductive IllegalWord where
  /-- (a) cw[31:14] is not 0. -/
  | reservedHigh
  /-- (b) cw[7:4] is not 0. -/
  | reservedLow
  /-- (c) OP selects no command. -/
  | undefinedOp
  /-- (d) NB is not 0 and OP is not SHA_FINAL's. -/
  | nbNotZero
deriving DecidableEq, Repr

/-- OP, cw[3:0] (30_encoding.md R75). -/
def opField (cw : Word) : BitVec 4 := cw.extractLsb' 0 4

/-- The reserved field cw[7:4] (30_encoding.md R75). -/
def reservedLowField (cw : Word) : BitVec 4 := cw.extractLsb' 4 4

/-- NB, cw[13:8] (30_encoding.md R75). -/
def nbField (cw : Word) : BitVec 6 := cw.extractLsb' 8 6

/-- The reserved field cw[31:14] (30_encoding.md R75). -/
def reservedHighField (cw : Word) : BitVec 18 := cw.extractLsb' 14 18

/-- The case of 30_encoding.md R79 on OP, for a word whose reserved bits and NB are 0. -/
def decodeOp (op : Nat) : Except IllegalWord Instr :=
  match op with
  | 0x1 => .ok .shaInit
  | 0x2 => .ok .shaBlock
  | 0x4 => .ok .shaCompress
  | 0x8 => .ok .modexp
  | 0x9 => .ok .digestToBase
  | 0xA => .ok .cmpDigest
  | _ => .error .undefinedOp

/-- `Decode(cw)` of 30_encoding.md R79. No mode bit changes it (R80). -/
def decode (cw : Word) : Except IllegalWord Instr :=
  if reservedHighField cw ≠ 0 then .error .reservedHigh
  else if reservedLowField cw ≠ 0 then .error .reservedLow
  else if opField cw = 0x3 then .ok (.shaFinal (nbField cw).toNat)
  else if nbField cw ≠ 0 then .error .nbNotZero
  else decodeOp (opField cw).toNat

/-- The command word of a command (30_encoding.md R76, R87). -/
def encode : Instr → Word
  | .shaInit => 0x00000001
  | .shaBlock => 0x00000002
  | .shaFinal nb => 0x00000003 ||| (BitVec.ofNat 32 nb <<< 8)
  | .shaCompress => 0x00000004
  | .modexp => 0x00000008
  | .digestToBase => 0x00000009
  | .cmpDigest => 0x0000000A

/-- One row of the opcode map (30_encoding.md R76): a word selects the row when `cw &&& mask = value`. -/
structure OpcodeRow where
  mnemonic : String
  mask : Word
  value : Word
deriving DecidableEq, Repr

/-- The opcode map of 30_encoding.md R76, row for row. -/
def opcodeTable : List OpcodeRow :=
  [⟨"SHA_INIT", 0xFFFFFFFF, 0x00000001⟩,
   ⟨"SHA_BLOCK", 0xFFFFFFFF, 0x00000002⟩,
   ⟨"SHA_FINAL", 0xFFFFC0FF, 0x00000003⟩,
   ⟨"SHA_COMPRESS", 0xFFFFFFFF, 0x00000004⟩,
   ⟨"MODEXP", 0xFFFFFFFF, 0x00000008⟩,
   ⟨"DIGEST_TO_BASE", 0xFFFFFFFF, 0x00000009⟩,
   ⟨"CMP_DIGEST", 0xFFFFFFFF, 0x0000000A⟩]

/-- The mnemonic of a command (30_encoding.md R76). -/
def Instr.mnemonic : Instr → String
  | .shaInit => "SHA_INIT"
  | .shaBlock => "SHA_BLOCK"
  | .shaFinal _ => "SHA_FINAL"
  | .shaCompress => "SHA_COMPRESS"
  | .modexp => "MODEXP"
  | .digestToBase => "DIGEST_TO_BASE"
  | .cmpDigest => "CMP_DIGEST"

/-- The command word that the table's bits `w` stand for: a command is one 32-bit word (30_encoding.md R75), and the
bits above `nbits` are 0. -/
def commandWord (nbits w : Nat) : Word := BitVec.ofNat 32 (w % 2 ^ nbits)

/-- What the decoder reads from a word of the opcode table's numbering. A number that no 32-bit word holds is no
command. -/
def decodeTableWord (nbits w : Nat) : Option Instr :=
  if w % 2 ^ nbits < 2 ^ 32 then
    match decode (commandWord nbits w) with
    | .ok i => some i
    | .error _ => none
  else none

end Sys2Proof
end

