-- ==== Sys2Proof/Config.lean ====
section
/-! DEFINITION. What an instance or a platform fixes, and the free values (spec/00_scope.md R7, R12). None of these
constants has a body: no proof can see a value of one, so a statement that mentions one holds whatever it is. -/

namespace Sys2Proof

/-- How far the instance's operand width lies above the least one, 5 words: 0 to 1019 (00_scope.md R7). -/
opaque Config.rsaNwAboveFive : Fin 1020

/-- RSA_NW of the instance that `State.reset` describes, 5 to 1024 words (00_scope.md R7; log 5). Statements do not
use it: they range over the field `State.rsaNw`. -/
def Config.rsaNw : Nat := Config.rsaNwAboveFive.val + 5

/-- The external modular multiplier MM (41_modexp.md R127, R129): total, opaque, nothing else known of it (log 6). -/
opaque Config.mm : Nat → Nat → Nat → Nat

/-- `draw()` (00_scope.md R12; 20_memory.md R55): the k-th value the block does not fix (log 3). -/
opaque Config.draw : Nat → Word

/-- BASE_ADDR: where the platform places the region (00_scope.md R7; log 12). -/
opaque Config.baseAddr : Nat

/-- IRQ_LINE: the platform's interrupt input that the block's IRQ drives (00_scope.md R7; log 16). -/
opaque Config.irqLine : Nat

end Sys2Proof
end

