-- ==== Sys2Proof/Machine/Sha1.lean ====
section
/-! DEFINITION. SHA-1 as pure functions: constants, round functions, schedule, the compression function, padding and
the digest (spec/40_sha1.md R95 to R104). The commands (Machine/ShaCommands.lean) call them; the reset state takes
IV from here. -/

namespace Sys2Proof.Machine

/-- `rotl32(x, n)` (00_scope.md R9). -/
def rotl32 (x : Word) (n : Nat) : Word := (x <<< n) ||| (x >>> (32 - n))

/-- The initial chaining value (40_sha1.md R95). -/
def iv : Vector Word 5 := #v[0x67452301, 0xEFCDAB89, 0x98BADCFE, 0x10325476, 0xC3D2E1F0]

/-- Ch (40_sha1.md R96). -/
def ch (b c d : Word) : Word := (b &&& c) ||| (~~~b &&& d)

/-- Parity (40_sha1.md R96). -/
def parity (b c d : Word) : Word := b ^^^ c ^^^ d

/-- Maj (40_sha1.md R96). -/
def maj (b c d : Word) : Word := (b &&& c) ||| (b &&& d) ||| (c &&& d)

/-- `f_t(b, c, d)`, by the quartile of t (40_sha1.md R96). -/
def roundFn (t : Nat) (b c d : Word) : Word :=
  if t < 20 then ch b c d
  else if t < 40 then parity b c d
  else if t < 60 then maj b c d
  else parity b c d

/-- `K_t`, by the quartile of t (40_sha1.md R97). -/
def roundConst (t : Nat) : Word :=
  if t < 20 then 0x5A827999
  else if t < 40 then 0x6ED9EBA1
  else if t < 60 then 0x8F1BBCDC
  else 0xCA62C1D6

/-- The next schedule word from the words before it, NEWEST FIRST: `ws` begins W[t-1], W[t-2], …, so W[t-3], W[t-8],
W[t-14] and W[t-16] stand at 2, 7, 13 and 15 (40_sha1.md R99). -/
def nextScheduleWord (ws : List Word) : Word :=
  rotl32 (ws.getD 2 0 ^^^ ws.getD 7 0 ^^^ ws.getD 13 0 ^^^ ws.getD 15 0) 1

/-- `n` more schedule words put in front of `ws`, newest first. -/
def extendSchedule : Nat → List Word → List Word
  | 0, ws => ws
  | n + 1, ws => extendSchedule n (nextScheduleWord ws :: ws)

/-- W[0..79] in order, from the 16 words of a block (40_sha1.md R99). -/
def schedule (m : Vector Word 16) : List Word := (extendSchedule 64 m.toList.reverse).reverse

/-- The working registers A, B, C, D, E inside one compression (40_sha1.md R100). They are local to `compress`:
the block's state does not hold them (10_state.md R39). -/
structure Working where
  a : Word
  b : Word
  c : Word
  d : Word
  e : Word
deriving DecidableEq, Repr

/-- One round: every right-hand side reads the registers from before the round (40_sha1.md R100). -/
def shaRound (t : Nat) (wt : Word) (r : Working) : Working :=
  { a := rotl32 r.a 5 + roundFn t r.b r.c r.d + r.e + roundConst t + wt
    b := r.a
    c := rotl32 r.b 30
    d := r.c
    e := r.d }

/-- The rounds t, t+1, … over the schedule words given, in order (40_sha1.md R100). -/
def shaRounds : Nat → List Word → Working → Working
  | _, [], r => r
  | t, w :: ws, r => shaRounds (t + 1) ws (shaRound t w r)

/-- Feed-forward (40_sha1.md R101). -/
def feedForward (h : Vector Word 5) (r : Working) : Vector Word 5 :=
  #v[h[0] + r.a, h[1] + r.b, h[2] + r.c, h[3] + r.d, h[4] + r.e]

/-- `Compress(h, M)` (40_sha1.md R102). -/
def compress (h : Vector Word 5) (m : Vector Word 16) : Vector Word 5 :=
  feedForward h (shaRounds 0 (schedule m) ⟨h[0], h[1], h[2], h[3], h[4]⟩)

/-- Word i of a byte sequence, big-endian; a byte past the end counts as 0 (40_sha1.md R98; 30_encoding.md R88). -/
def packWord (p : List Byte) (i : Nat) : Word :=
  p.getD (4 * i) 0 ++ p.getD (4 * i + 1) 0 ++ p.getD (4 * i + 2) 0 ++ p.getD (4 * i + 3) 0

/-- `Words(p)`: the 16 words of a 64-byte block (40_sha1.md R98). -/
def blockWords (p : List Byte) : Vector Word 16 :=
  #v[packWord p 0, packWord p 1, packWord p 2, packWord p 3,
     packWord p 4, packWord p 5, packWord p 6, packWord p 7,
     packWord p 8, packWord p 9, packWord p 10, packWord p 11,
     packWord p 12, packWord p 13, packWord p 14, packWord p 15]

/-- Byte j of the 64-bit big-endian length field: L[63-8j : 56-8j] (40_sha1.md R103, R108). -/
def lengthByte (l j : Nat) : Byte := BitVec.ofNat 8 (l / 2 ^ (56 - 8 * j))

/-- The eight bytes of a length, most significant first (40_sha1.md R103). -/
def lengthField (l : Nat) : List Byte := (List.range 8).map (lengthByte l)

/-- z = (55 - |m|) mod 64, the number of zero bytes (40_sha1.md R103). -/
def zeroCount (len : Nat) : Nat := (119 - len % 64) % 64

/-- `Pad(m)` (40_sha1.md R103). -/
def pad (m : List Byte) : List Byte :=
  m ++ [0x80] ++ List.replicate (zeroCount m.length) 0 ++ lengthField (8 * m.length)

/-- Block j of a byte sequence, 64 bytes (40_sha1.md R104). -/
def blockOf (p : List Byte) (j : Nat) : List Byte := (p.drop (64 * j)).take 64

/-- The 64-byte blocks of a byte sequence, in order (40_sha1.md R104). -/
def blocks (p : List Byte) : List (List Byte) := (List.range (p.length / 64)).map (blockOf p)

/-- The chaining value after compressing the blocks in order (40_sha1.md R104). -/
def compressBlocks (h : Vector Word 5) (bs : List (List Byte)) : Vector Word 5 :=
  bs.foldl (fun h p => compress h (blockWords p)) h

/-- `SHA1(m)` (40_sha1.md R104). -/
def sha1 (m : List Byte) : Vector Word 5 := compressBlocks iv (blocks (pad m))

end Sys2Proof.Machine
end

