-- ==== Sys2Proof/Machine/State.lean ====
section
/-! DEFINITION. The machine's state as plain data (spec/10_state.md R20), what the pins bring (host accesses, engine
turns, hardware reset), what the bus answers, and the state after reset (70_reset_and_hazards.md R166). -/

namespace Sys2Proof.Machine

/-- The reasons a host access is refused at the bus (60_exceptions.md R145, R150). The block goes on: `step` never
stops with one; it is recorded as the response of the access that raised it (log 4). -/
inductive Fault where
  /-- BusError(addr): raised by a host access that is misaligned, not 32 bits wide, or to an unmapped offset
  (20_memory.md R53, R54). Safe: the access has no effect on the block, as the spec says. -/
  | busError (addr : Nat)
deriving DecidableEq, Repr

/-- Why `exec` gives an instruction no meaning. -/
inductive Refusal where
  /-- Raised by an arm of `exec` whose instruction has no meaning yet. No arm raises it now. Safe. -/
  | notModelled (mnemonic : String)
deriving DecidableEq, Repr

/-- The error codes a command can complete with (60_exceptions.md R147). Code 0 is success and codes 6 to 15 are
never produced. -/
inductive CmdError where
  /-- Code 1: an illegal command word (30_encoding.md R78). -/
  | illegalCmd
  /-- Code 2: the new length exceeds 2^64 - 1 bits (40_sha1.md R107, R108). -/
  | lenOvf
  /-- Code 3: val(MOD) = 0 (41_modexp.md R132). -/
  | modZero
  /-- Code 4: val(MOD) is even and nonzero (41_modexp.md R132). -/
  | modEven
  /-- Code 5: val(BASE) >= val(MOD), MOD odd (41_modexp.md R132). -/
  | baseRange
deriving DecidableEq, Repr

/-- The width of a host access as the bus sees it (20_memory.md R54; log 14). -/
inductive Width where
  /-- An access of `n` bytes with every byte lane of it enabled. Only `n = 4` is admitted. -/
  | bytes (n : Nat)
  /-- An access with a partial byte-enable pattern. Never admitted. -/
  | partialEnables
deriving DecidableEq, Repr

/-- What a host access does: `MemRead` or `MemWrite` of a value (00_scope.md R12). -/
inductive AccessKind where
  | read
  | write (v : Word)
deriving DecidableEq, Repr

/-- One host access: its offset from BASE_ADDR, its width and what it does (00_scope.md R12). -/
structure Access where
  addr : Nat
  width : Width
  kind : AccessKind
deriving DecidableEq, Repr

/-- What the pins bring next. The list of them in State is the order of everything that happens, and the spec fixes
no order between a host access and a completion (60_exceptions.md R153; log 2). -/
inductive Event where
  /-- A host access arrives (20_memory.md R64). -/
  | access (a : Access)
  /-- The engine takes its turn: it completes the pending command, if there is one (30_encoding.md R84). -/
  | engine
  /-- The hardware reset input, asserted and released (70_reset_and_hazards.md R165, R169; log 13). -/
  | hwReset
deriving DecidableEq, Repr

/-- The bus response of one host access. -/
inductive Response where
  /-- The word a read returns (20_memory.md R55). -/
  | data (v : Word)
  /-- The normal response of a write, a dropped or ignored one too (20_memory.md R56; 60_exceptions.md R149). -/
  | written
  /-- A bus error response (60_exceptions.md R150). -/
  | fault (f : Fault)
deriving DecidableEq, Repr

/-- An operand memory (BASE, EXP, MOD or RES; 10_state.md R30 to R33): pairs of word index and word, indexes strictly
rising, no zero word listed. An unlisted word reads as 0, its reset value (70_reset_and_hazards.md R166; log 8). The
word is the smallest unit an access reaches (20_memory.md R58). -/
abbrev Memory := List (Nat × Word)

/-- The fields of STATUS (10_state.md R23). Its reserved bits read 0 and hold nothing. -/
structure Status where
  /-- Bit 0: a command is pending. -/
  busy : Bool
  /-- Bit 1: a command has completed. -/
  done : Bool
  /-- Bit 2, sticky: a command completed with a nonzero code. -/
  err : Bool
  /-- Bit 3, sticky: a host write was dropped. -/
  ovr : Bool
  /-- Bit 4, MATCH: the result of the last CMP_DIGEST. -/
  cmpMatch : Bool
  /-- Bits 11:8, ERRCODE: the code of the last completed command. -/
  errcode : BitVec 4
deriving DecidableEq, Repr

/-- The block's state: all of 10_state.md R20, and three fields of the model's own that hold what the pins bring and
what the bus has answered. The datapath state of R37 and R38 is left out as R39 allows (log 1). -/
structure State where
  /-- RSA_NW, hardwired in the instance and read in PARAM (10_state.md R26). No step changes it. -/
  rsaNw : Nat
  /-- CTRL.IE (10_state.md R22). -/
  ie : Bool
  /-- STATUS (10_state.md R23). -/
  status : Status
  /-- PEND, the pending command word (10_state.md R36). -/
  pend : Option Word
  /-- The chaining words H[0..4] (10_state.md R27). -/
  h : Vector Word 5
  /-- LEN, in bits (10_state.md R28). -/
  len : BitVec 64
  /-- The message block MSG[0..15] (10_state.md R29). -/
  msg : Vector Word 16
  /-- BASE (10_state.md R30). -/
  base : Memory
  /-- EXP (10_state.md R31). -/
  exp : Memory
  /-- MOD (10_state.md R32). -/
  mod : Memory
  /-- RES (10_state.md R33). -/
  res : Memory
  /-- The model's own: what the pins bring, oldest first (log 2). -/
  events : List Event
  /-- The model's own: the responses of the accesses handled so far, newest first (log 10). -/
  responses : List Response
  /-- The model's own: how many values `draw()` has given (log 3). -/
  draws : Nat
deriving DecidableEq, Repr

/-- `s` with the field `ie` replaced. -/
def State.setIe (s : State) (v : Bool) : State := { s with ie := v }

/-- `s` with the field `status` replaced. -/
def State.setStatus (s : State) (v : Status) : State := { s with status := v }

/-- `s` with the field `pend` replaced. -/
def State.setPend (s : State) (v : Option Word) : State := { s with pend := v }

/-- `s` with the field `h` replaced. -/
def State.setH (s : State) (v : Vector Word 5) : State := { s with h := v }

/-- `s` with the field `len` replaced. -/
def State.setLen (s : State) (v : BitVec 64) : State := { s with len := v }

/-- `s` with the field `msg` replaced. -/
def State.setMsg (s : State) (v : Vector Word 16) : State := { s with msg := v }

/-- `s` with the field `base` replaced. -/
def State.setBase (s : State) (v : Memory) : State := { s with base := v }

/-- `s` with the field `exp` replaced. -/
def State.setExp (s : State) (v : Memory) : State := { s with exp := v }

/-- `s` with the field `mod` replaced. -/
def State.setMod (s : State) (v : Memory) : State := { s with mod := v }

/-- `s` with the field `res` replaced. -/
def State.setRes (s : State) (v : Memory) : State := { s with res := v }

/-- `s` with the field `events` replaced. -/
def State.setEvents (s : State) (v : List Event) : State := { s with events := v }

/-- `s` with the field `responses` replaced. -/
def State.setResponses (s : State) (v : List Response) : State := { s with responses := v }

/-- `s` with the field `draws` replaced. -/
def State.setDraws (s : State) (v : Nat) : State := { s with draws := v }

/-- STATUS after a reset (70_reset_and_hazards.md R166). -/
def Status.reset : Status :=
  { busy := false, done := false, err := false, ovr := false, cmpMatch := false, errcode := 0 }

/-- The state after a reset of an instance with operands of `nw` words (70_reset_and_hazards.md R166), nothing at the
pins, nothing answered (log 10). -/
def State.resetOf (nw : Nat) : State :=
  { rsaNw := nw
    ie := false
    status := Status.reset
    pend := none
    h := iv
    len := 0
    msg := #v[0, 0, 0, 0, 0, 0, 0, 0, 0, 0, 0, 0, 0, 0, 0, 0]
    base := []
    exp := []
    mod := []
    res := []
    events := []
    responses := []
    draws := 0 }

/-- The machine right after reset, of the instance whose width the platform fixes (00_scope.md R7; log 5). -/
def State.reset : State := State.resetOf Config.rsaNw

end Sys2Proof.Machine
end

