-- ==== Sys2Proof/Machine/Flags.lean ====
section
/-! DEFINITION. The STATUS flags, CTRL and IRQ: every way a flag changes and what the registers read as
(spec/10_state.md R22 to R24, R34, R35). -/

namespace Sys2Proof.Machine

/-- The code of an error in STATUS.ERRCODE (60_exceptions.md R147). -/
def CmdError.code : CmdError → BitVec 4
  | .illegalCmd => 1
  | .lenOvf => 2
  | .modZero => 3
  | .modEven => 4
  | .baseRange => 5

/-- What a read of STATUS returns: ERRCODE || 000 || MATCH || OVR || ERR || DONE || BUSY, zero-extended
(10_state.md R23). -/
def Status.word (f : Status) : Word :=
  (f.errcode ++ (0 : BitVec 3) ++ BitVec.ofBool f.cmpMatch ++ BitVec.ofBool f.ovr ++ BitVec.ofBool f.err
    ++ BitVec.ofBool f.done ++ BitVec.ofBool f.busy).setWidth 32

/-- The flags at the acceptance of a command: BUSY set, DONE and MATCH cleared, ERR, OVR and ERRCODE unchanged
(30_encoding.md R82). -/
def Status.accept (f : Status) : Status := { f with busy := true, done := false, cmpMatch := false }

/-- The flags at a completion with no error (30_encoding.md R84). -/
def Status.succeed (f : Status) : Status := { f with busy := false, done := true, errcode := 0 }

/-- The flags at a completion with an error (30_encoding.md R84; 60_exceptions.md R146). -/
def Status.fail (f : Status) (e : CmdError) : Status :=
  { f with busy := false, done := true, err := true, errcode := e.code }

/-- The flags when a host write is dropped (20_memory.md R56; 60_exceptions.md R149). -/
def Status.overrun (f : Status) : Status := { f with ovr := true }

/-- The flags after CMP_DIGEST writes MATCH (41_modexp.md R134). -/
def Status.setMatch (f : Status) (b : Bool) : Status := { f with cmpMatch := b }

/-- A write of STATUS: a 1 in bit 1, 2 or 3 clears DONE, ERR or OVR, and every other bit is ignored
(10_state.md R24). -/
def Status.clear (f : Status) (v : Word) : Status :=
  { f with
    done := f.done && !v.getLsbD 1
    err := f.err && !v.getLsbD 2
    ovr := f.ovr && !v.getLsbD 3 }

/-- What a read of CTRL returns: IE in bit 0, SRST and the reserved bits as 0 (10_state.md R22). -/
def State.ctrlWord (s : State) : Word := (BitVec.ofBool s.ie).setWidth 32

/-- What a read of PARAM returns: RSA_NW in bits 15:0, and 0 above (10_state.md R26). -/
def State.paramWord (s : State) : Word := (BitVec.ofNat 16 s.rsaNw).setWidth 32

/-- The IRQ output, a level: CTRL.IE & STATUS.DONE (10_state.md R35). -/
def State.irq (s : State) : Bool := s.ie && s.status.done

/-- The level the block drives on the platform's interrupt input `line` (60_exceptions.md R151): its IRQ on IRQ_LINE,
nothing elsewhere (log 16). -/
def State.irqAt (s : State) (line : Nat) : Bool := decide (line = Config.irqLine) && s.irq

end Sys2Proof.Machine
end

