-- ==== Sys2Proof/Machine/Ops.lean ====
section
/-! DEFINITION. The named operations over the operand memories and over the state: reading and writing a word,
acceptance, overrun, completion with and without an error, reset, and the record of a bus response. -/

namespace Sys2Proof.Machine

/-! ### Operand memories -/

/-- The word at index `i`; an unlisted word is 0 (70_reset_and_hazards.md R166). -/
def Memory.read : Memory → Nat → Word
  | [], _ => 0
  | (j, w) :: m, i => if i = j then w else Memory.read m i

/-- The entry of word `i` in front of the entries above it; the word 0 is not listed. -/
def Memory.put (i : Nat) (v : Word) (m : Memory) : Memory := if v = 0 then m else (i, v) :: m

/-- The memory with the word at index `i` replaced, in canonical form. -/
def Memory.write : Memory → Nat → Word → Memory
  | [], i, v => Memory.put i v []
  | (j, w) :: m, i, v =>
    if i < j then Memory.put i v ((j, w) :: m)
    else if i = j then Memory.put i v m
    else (j, w) :: Memory.write m i v

/-- The words `ws` at the indexes k, k+1, …, in canonical form. -/
def Memory.ofWordsFrom : Nat → List Word → Memory
  | _, [] => []
  | k, w :: ws => Memory.put k w (Memory.ofWordsFrom (k + 1) ws)

/-- The memory that holds the words `ws` from index 0 on, and 0 everywhere else. -/
def Memory.ofWords (ws : List Word) : Memory := Memory.ofWordsFrom 0 ws

/-- Indexes strictly rising from `lo` on, and no zero word. -/
def Memory.wfFrom : Nat → Memory → Bool
  | _, [] => true
  | lo, (i, v) :: m => decide (lo ≤ i) && decide (v ≠ 0) && Memory.wfFrom (i + 1) m

/-- The canonical form: indexes strictly rising, no entry equal to what an unlisted word reads as. -/
def Memory.wf (m : Memory) : Bool := Memory.wfFrom 0 m

/-- Every listed index is one of the `nw` words of the memory (20_memory.md R52). -/
def Memory.below (nw : Nat) (m : Memory) : Bool := m.all fun e => decide (e.1 < nw)

/-! ### The command lifecycle (30_encoding.md R82 to R84) -/

/-- Acceptance of a command word: it is latched undecoded (30_encoding.md R82). -/
def State.accept (s : State) (cw : Word) : State := (s.setPend (some cw)).setStatus s.status.accept

/-- A host write dropped because BUSY = 1: OVR is set and nothing else changes (30_encoding.md R83; 20_memory.md
R56). -/
def State.overrun (s : State) : State := s.setStatus s.status.overrun

/-- A command error, taken as the completion it is (60_exceptions.md R146): ERRCODE and ERR record it, the engine goes
idle, and no register other than STATUS changes. There is nothing to return to (R154, R155). -/
def State.raiseCmdError (s : State) (e : CmdError) : State := (s.setPend none).setStatus (s.status.fail e)

/-- A completion with no error, of a state that already holds the command's writes (30_encoding.md R84). -/
def State.succeed (s : State) : State := (s.setPend none).setStatus s.status.succeed

/-- `EngineStep` after `Exec` (30_encoding.md R84): `.ok t` is `Ok(writes)`, with `t` the state `s` with the writes
made, and `.error e` is `Err(e)`, whose completion takes nothing from a partial result. -/
def State.complete (s : State) : Except CmdError State → State
  | .ok t => t.succeed
  | .error e => s.raiseCmdError e

/-- The command word the engine takes up next (30_encoding.md R84: `cw <- PEND`). -/
def State.fetch (s : State) : Option Word := s.pend

/-! ### Reset and responses -/

/-- Hardware or soft reset (70_reset_and_hazards.md R165 to R168): every register at its reset value, a pending
command discarded with no completion. What the pins still bring and what the bus has answered are not the block's
and stay. -/
def State.resetBlock (s : State) : State :=
  (((State.resetOf s.rsaNw).setEvents s.events).setResponses s.responses).setDraws s.draws

/-- The response of the access just handled is recorded. -/
def State.respond (s : State) (r : Response) : State := s.setResponses (r :: s.responses)

/-- A value the block does not fix is taken: the next one is another (00_scope.md R12). -/
def State.drawn (s : State) : State := s.setDraws (s.draws + 1)

end Sys2Proof.Machine
end

