-- ==== Sys2Proof/Machine/Operands.lean ====
section
/-! DEFINITION. The operand forms: integers held in word memories, the digest as an integer, message bytes inside MSG
(spec/20_memory.md R59 to R61), and the implicit operands of the commands (30_encoding.md R77). -/

namespace Sys2Proof.Machine

/-- `val(X)`: word i counts X[i] · 2^(32·i) (20_memory.md R60). Unlisted words are 0 and count nothing. -/
def Memory.val : Memory → Nat
  | [] => 0
  | (i, v) :: m => v.toNat * 2 ^ (32 * i) + Memory.val m

/-- The `nw` words of an integer, least significant first: (n div 2^(32·i)) mod 2^32 (20_memory.md R60; 41_modexp.md
R132). -/
def wordsOf (nw n : Nat) : List Word := (List.range nw).map fun i => BitVec.ofNat 32 (n / 2 ^ (32 * i))

/-- An integer loaded into an operand memory of `nw` words. -/
def Memory.ofNat (nw n : Nat) : Memory := Memory.ofWords (wordsOf nw n)

/-- DIG, the digest as an integer, H[0] most significant (20_memory.md R61). -/
def digestValue (h : Vector Word 5) : Nat :=
  h[0].toNat * 2 ^ 128 + h[1].toNat * 2 ^ 96 + h[2].toNat * 2 ^ 64 + h[3].toNat * 2 ^ 32 + h[4].toNat

/-- Byte k of the message block: MSG[k div 4][31 - 8·(k mod 4) : 24 - 8·(k mod 4)] (20_memory.md R59). -/
def msgByte (msg : Vector Word 16) (k : Nat) : Byte :=
  (msg.toList.getD (k / 4) 0).extractLsb' (24 - 8 * (k % 4)) 8

/-- The first `nb` bytes of the message block (40_sha1.md R108). -/
def msgBytes (msg : Vector Word 16) (nb : Nat) : List Byte := (List.range nb).map (msgByte msg)

/-- The largest message length, 2^64 - 1 bits (00_scope.md R6). -/
def maxLen : Nat := 2 ^ 64 - 1

end Sys2Proof.Machine
end

