-- ==== Sys2Proof/Machine/Bus.lean ====
section
/-! DEFINITION. The bus interface: the register map, what a read returns, what a write does, and one host access
(spec/20_memory.md R50 to R57; 10_state.md R21 to R33). -/

namespace Sys2Proof.Machine

/-- The registers of the map (20_memory.md R51). -/
inductive Reg where
  | id
  | ctrl
  | status
  | cmd
  | param
  | h (i : Fin 5)
  | lenLo
  | lenHi
  | msg (i : Fin 16)
  | base (i : Nat)
  | exp (i : Nat)
  | mod (i : Nat)
  | res (i : Nat)
deriving DecidableEq, Repr

/-- The offset of a register (20_memory.md R51, R52; 30_encoding.md R87). -/
def Reg.offset : Reg → Nat
  | .id => 0x000
  | .ctrl => 0x004
  | .status => 0x008
  | .cmd => 0x00C
  | .param => 0x010
  | .h i => 0x020 + 4 * i.val
  | .lenLo => 0x038
  | .lenHi => 0x03C
  | .msg i => 0x040 + 4 * i.val
  | .base i => 0x1000 + 4 * i
  | .exp i => 0x2000 + 4 * i
  | .mod i => 0x3000 + 4 * i
  | .res i => 0x4000 + 4 * i

/-- The instance has the register: window words exist below RSA_NW (20_memory.md R52). -/
def Reg.mapped (nw : Nat) : Reg → Bool
  | .id | .ctrl | .status | .cmd | .param | .h _ | .lenLo | .lenHi | .msg _ => true
  | .base i | .exp i | .mod i | .res i => decide (i < nw)

/-- The word of an operand window at `off` bytes from the window's base, if the instance has it (20_memory.md
R52). -/
def windowReg (nw off : Nat) (mk : Nat → Reg) : Option Reg :=
  if off / 4 < nw then some (mk (off / 4)) else none

/-- The register at an aligned offset of the first page, 0x000 to 0xFFC, or none where the map says unmapped
(20_memory.md R51). -/
def pageReg (a : Nat) : Option Reg :=
  if a = 0x000 then some .id
  else if a = 0x004 then some .ctrl
  else if a = 0x008 then some .status
  else if a = 0x00C then some .cmd
  else if a = 0x010 then some .param
  else if a < 0x020 then none
  else if ha : (a - 0x020) / 4 < 5 then some (.h ⟨(a - 0x020) / 4, ha⟩)
  else if a = 0x034 then none
  else if a = 0x038 then some .lenLo
  else if a = 0x03C then some .lenHi
  else if hm : (a - 0x040) / 4 < 16 then some (.msg ⟨(a - 0x040) / 4, hm⟩)
  else none

/-- The register at an aligned offset, or none where the map says unmapped: the first page, then one 4 KiB window for
each operand, then nothing (20_memory.md R51 to R53). -/
def regAtAligned (nw a : Nat) : Option Reg :=
  match a / 0x1000 with
  | 0 => pageReg a
  | 1 => windowReg nw (a % 0x1000) .base
  | 2 => windowReg nw (a % 0x1000) .exp
  | 3 => windowReg nw (a % 0x1000) .mod
  | 4 => windowReg nw (a % 0x1000) .res
  | _ => none

/-- The register an access reaches: none unless it is 32 bits wide, aligned and mapped (20_memory.md R53, R54). -/
def Access.target (nw : Nat) (a : Access) : Option Reg :=
  if a.width = .bytes 4 ∧ a.addr % 4 = 0 then regAtAligned nw a.addr else none

/-- The constant of the ID register (10_state.md R21). -/
def idWord : Word := 0x53314D01

/-- The word a register holds, BUSY or not. ID and PARAM are hardwired (10_state.md R21, R26). CMD and EXP read as 0
(R25, R31). -/
def Reg.value (s : State) : Reg → Word
  | .id => idWord
  | .ctrl => s.ctrlWord
  | .status => s.status.word
  | .cmd => 0
  | .param => s.paramWord
  | .h i => s.h[i.val]
  | .lenLo => s.len.extractLsb' 0 32
  | .lenHi => s.len.extractLsb' 32 32
  | .msg i => s.msg[i.val]
  | .base i => s.base.read i
  | .exp _ => 0
  | .mod i => s.mod.read i
  | .res i => s.res.read i

/-- The registers the engine owns during a command, whose value a read then does not fix (20_memory.md R55). -/
def Reg.engineOwned : Reg → Bool
  | .id | .ctrl | .status | .cmd | .param | .exp _ => false
  | .h _ | .lenLo | .lenHi | .msg _ | .base _ | .mod _ | .res _ => true

/-- A mapped read: the word it returns and the state after it, which differs only where a value was drawn
(20_memory.md R55). -/
def State.readReg (s : State) (r : Reg) : Word × State :=
  if s.status.busy && r.engineOwned then (Config.draw s.draws, s.drawn) else (r.value s, s)

/-- LEN with its lower half replaced, the other unchanged (10_state.md R28). -/
def withLenLo (len : BitVec 64) (v : Word) : BitVec 64 := len.extractLsb' 32 32 ++ v

/-- LEN with its upper half replaced, the other unchanged (10_state.md R28). -/
def withLenHi (len : BitVec 64) (v : Word) : BitVec 64 := v ++ len.extractLsb' 0 32

/-- A write of CTRL: bit 1 is a soft reset, which also clears IE; otherwise IE takes bit 0 (10_state.md R22;
70_reset_and_hazards.md R167). -/
def State.ctrlWrite (s : State) (v : Word) : State :=
  if v.getLsbD 1 then s.resetBlock else s.setIe (v.getLsbD 0)

/-- A write of an input word while BUSY = 0: the word becomes `v` (20_memory.md R56). The registers that no write
changes are listed too: they hold no input word. -/
def State.storeInput (s : State) (r : Reg) (v : Word) : State :=
  match r with
  | .id | .ctrl | .status | .cmd | .param | .res _ => s
  | .h i => s.setH (s.h.set i.val v)
  | .lenLo => s.setLen (withLenLo s.len v)
  | .lenHi => s.setLen (withLenHi s.len v)
  | .msg i => s.setMsg (s.msg.set i.val v)
  | .base i => s.setBase (s.base.write i v)
  | .exp i => s.setExp (s.exp.write i v)
  | .mod i => s.setMod (s.mod.write i v)

/-- A mapped write (20_memory.md R56). -/
def State.writeReg (s : State) (r : Reg) (v : Word) : State :=
  match r with
  | .id | .param | .res _ => s
  | .ctrl => s.ctrlWrite v
  | .status => s.setStatus (s.status.clear v)
  | .cmd => if s.status.busy then s.overrun else s.accept v
  | .h _ | .lenLo | .lenHi | .msg _ | .base _ | .exp _ | .mod _ =>
    if s.status.busy then s.overrun else s.storeInput r v

/-- One host access, from its arrival to its response, atomic (20_memory.md R62, R64). -/
def State.handleAccess (s : State) (a : Access) : State :=
  match a.target s.rsaNw with
  | none => s.respond (.fault (.busError a.addr))
  | some r =>
    match a.kind with
    | .read => (s.readReg r).2.respond (.data (s.readReg r).1)
    | .write v => (s.writeReg r v).respond .written

/-- The access that a host access at absolute address `addr` is to this block, if the platform routes it here
(00_scope.md R7; log 12). -/
def accessAt (addr : Nat) (width : Width) (kind : AccessKind) : Option Access :=
  if Config.baseAddr ≤ addr then some ⟨addr - Config.baseAddr, width, kind⟩ else none

end Sys2Proof.Machine
end

