-- ==== Sys2Proof/Machine/ModexpCommands.lean ====
section
/-! DEFINITION. MODEXP, DIGEST_TO_BASE and CMP_DIGEST (spec/41_modexp.md R125 to R136). The multiplier is an argument
of the sequencer and of MODEXP's `Exec`; the command itself uses `Config.mm`, of which nothing is known. -/

namespace Sys2Proof.Machine

/-- `bitlen(x)`, the least k with x < 2^k (00_scope.md R10). -/
def bitlen (x : Nat) : Nat := if x = 0 then 0 else Nat.log2 x + 1

/-- The loop of the sequencer with `i` exponent bits still to come: square, then multiply where the bit is 1
(41_modexp.md R130). -/
def modExpLoop (mm : Nat → Nat → Nat → Nat) (b e n : Nat) : Nat → Nat → Nat
  | 0, r => r
  | i + 1, r => modExpLoop mm b e n i (if e.testBit i then mm (mm r r n) b n else mm r r n)

/-- `ModExpSeq(B, E, N)` for operands of `nw` words (41_modexp.md R130). -/
def modExpSeq (mm : Nat → Nat → Nat → Nat) (nw b e n : Nat) : Nat :=
  modExpLoop mm b e n (bitlen e) (1 % n) % 2 ^ (32 * nw)

/-- One call of the multiplier: its three arguments (41_modexp.md R127). -/
structure MmCall where
  x : Nat
  y : Nat
  n : Nat
deriving DecidableEq, Repr

/-- The calls the loop makes, in order (41_modexp.md R130: "The order of calls and their arguments are exactly as
written"). -/
def modExpLoopCalls (mm : Nat → Nat → Nat → Nat) (b e n : Nat) : Nat → Nat → List MmCall
  | 0, _ => []
  | i + 1, r =>
    if e.testBit i then
      ⟨r, r, n⟩ :: ⟨mm r r n, b, n⟩ :: modExpLoopCalls mm b e n i (mm (mm r r n) b n)
    else ⟨r, r, n⟩ :: modExpLoopCalls mm b e n i (mm r r n)

/-- The calls of `ModExpSeq(B, E, N)`, in order (41_modexp.md R130). -/
def modExpCalls (mm : Nat → Nat → Nat → Nat) (b e n : Nat) : List MmCall :=
  modExpLoopCalls mm b e n (bitlen e) (1 % n)

/-- `Exec` of MODEXP with the multiplier `mm`: the checks in their order, then the sequence (41_modexp.md R132;
60_exceptions.md R148). -/
def modexpExec (mm : Nat → Nat → Nat → Nat) (s : State) : Except CmdError State :=
  if s.mod.val = 0 then .error .modZero
  else if s.mod.val % 2 = 0 then .error .modEven
  else if s.mod.val ≤ s.base.val then .error .baseRange
  else .ok (s.setRes (Memory.ofNat s.rsaNw (modExpSeq mm s.rsaNw s.base.val s.exp.val s.mod.val)))

/-- MODEXP (41_modexp.md R132), with the instance's multiplier. -/
def execModexp (s : State) : Host.Outcome State Fault Refusal := .next (s.complete (modexpExec Config.mm s))

/-- `Exec` of DIGEST_TO_BASE: BASE[0..4] take H[4] down to H[0], every word above them 0 (41_modexp.md R133). -/
def digestToBaseExec (s : State) : Except CmdError State :=
  .ok (s.setBase (Memory.ofWords [s.h[4], s.h[3], s.h[2], s.h[1], s.h[0]]))

/-- DIGEST_TO_BASE (41_modexp.md R133). -/
def execDigestToBase (s : State) : Host.Outcome State Fault Refusal := .next (s.complete (digestToBaseExec s))

/-- `Exec` of CMP_DIGEST: MATCH says whether val(RES) = DIG (41_modexp.md R134). -/
def cmpDigestExec (s : State) : Except CmdError State :=
  .ok (s.setStatus (s.status.setMatch (decide (s.res.val = digestValue s.h))))

/-- CMP_DIGEST (41_modexp.md R134). -/
def execCmpDigest (s : State) : Host.Outcome State Fault Refusal := .next (s.complete (cmpDigestExec s))

end Sys2Proof.Machine
end

