-- ==== Sys2Proof/Machine/ShaCommands.lean ====
section
/-! DEFINITION. SHA_INIT, SHA_BLOCK, SHA_FINAL and SHA_COMPRESS (spec/40_sha1.md R106 to R109). Each command has its
`Exec` (what it writes, or its error) and its meaning, the completion of 30_encoding.md R84 around it. -/

namespace Sys2Proof.Machine

/-- `Exec` of SHA_INIT (40_sha1.md R106). -/
def shaInitExec (s : State) : Except CmdError State := .ok ((s.setH iv).setLen 0)

/-- SHA_INIT (40_sha1.md R106). -/
def execShaInit (s : State) : Host.Outcome State Fault Refusal := .next (s.complete (shaInitExec s))

/-- `Exec` of SHA_BLOCK; the length is an exact sum (40_sha1.md R107, R112). -/
def shaBlockExec (s : State) : Except CmdError State :=
  if s.len.toNat + 512 > maxLen then .error .lenOvf
  else .ok ((s.setH (compress s.h s.msg)).setLen (BitVec.ofNat 64 (s.len.toNat + 512)))

/-- SHA_BLOCK (40_sha1.md R107). -/
def execShaBlock (s : State) : Host.Outcome State Fault Refusal := .next (s.complete (shaBlockExec s))

/-- The number of blocks SHA_FINAL compresses (40_sha1.md R108: n). -/
def finalBlockCount (nb : Nat) : Nat := if nb ≤ 55 then 1 else 2

/-- Byte k of the padded tail P: a message byte below NB, 0x80 at NB, the length in the last eight bytes, 0 elsewhere
(40_sha1.md R108). -/
def finalByte (msg : Vector Word 16) (nb l k : Nat) : Byte :=
  if k < nb then msgByte msg k
  else if k = nb then 0x80
  else if 64 * finalBlockCount nb - 8 ≤ k then lengthByte l (k - (64 * finalBlockCount nb - 8))
  else 0

/-- The padded tail P[0 .. 64·n - 1] (40_sha1.md R108). -/
def finalBytes (msg : Vector Word 16) (nb l : Nat) : List Byte :=
  (List.range (64 * finalBlockCount nb)).map (finalByte msg nb l)

/-- `Exec` of SHA_FINAL (40_sha1.md R108). -/
def shaFinalExec (nb : Nat) (s : State) : Except CmdError State :=
  if s.len.toNat + 8 * nb > maxLen then .error .lenOvf
  else .ok ((s.setH (compressBlocks s.h (blocks (finalBytes s.msg nb (s.len.toNat + 8 * nb))))).setLen
    (BitVec.ofNat 64 (s.len.toNat + 8 * nb)))

/-- SHA_FINAL (40_sha1.md R108). -/
def execShaFinal (nb : Nat) (s : State) : Host.Outcome State Fault Refusal :=
  .next (s.complete (shaFinalExec nb s))

/-- `Exec` of SHA_COMPRESS: LEN is neither read nor written (40_sha1.md R109). -/
def shaCompressExec (s : State) : Except CmdError State := .ok (s.setH (compress s.h s.msg))

/-- SHA_COMPRESS (40_sha1.md R109). -/
def execShaCompress (s : State) : Host.Outcome State Fault Refusal := .next (s.complete (shaCompressExec s))

end Sys2Proof.Machine
end

