-- ==== Sys2Proof/Machine/Dispatch.lean ====
section
/-! DEFINITION. One arm for each command (30_encoding.md R76, R84). -/

namespace Sys2Proof.Machine

def exec (i : Instr) (s : State) : Host.Outcome State Fault Refusal :=
  match i with
  | .shaInit => Sys2Proof.Machine.execShaInit s
  | .shaBlock => Sys2Proof.Machine.execShaBlock s
  | .shaFinal nb => Sys2Proof.Machine.execShaFinal nb s
  | .shaCompress => Sys2Proof.Machine.execShaCompress s
  | .modexp => Sys2Proof.Machine.execModexp s
  | .digestToBase => Sys2Proof.Machine.execDigestToBase s
  | .cmpDigest => Sys2Proof.Machine.execCmpDigest s

end Sys2Proof.Machine
end

