-- ==== Sys2Proof/Machine/Engine.lean ====
section
/-! DEFINITION. The engine's turn and what each event at the pins does (spec/30_encoding.md R84; 70_reset_and_hazards.md
R165; 60_exceptions.md R153). -/

namespace Sys2Proof.Machine

/-- The engine completes a command word: a legal one by its meaning, an illegal one with ILLEGAL_CMD (30_encoding.md
R78, R84). -/
def runWord (cw : Word) (s : State) : Host.Outcome State Fault Refusal :=
  match decode cw with
  | .ok i => exec i s
  | .error _ => .next (s.raiseCmdError .illegalCmd)

/-- The engine's turn: enabled exactly when PEND is not empty, and otherwise nothing happens (30_encoding.md R84;
10_state.md R40). -/
def engineTurn (s : State) : Host.Outcome State Fault Refusal :=
  match s.fetch with
  | some cw => runWord cw s
  | none => .next s

/-- One event at the pins. -/
def handleEvent (e : Event) (s : State) : Host.Outcome State Fault Refusal :=
  match e with
  | .access a => .next (s.handleAccess a)
  | .engine => engineTurn s
  | .hwReset => .next s.resetBlock

/-- One step: the oldest event, or the engine's turn when the pins bring nothing (30_encoding.md R86: a pending command
completes; log 2). -/
def stepOnce (s : State) : Host.Outcome State Fault Refusal :=
  match s.events with
  | [] => engineTurn s
  | e :: es => handleEvent e (s.setEvents es)

/-- `cw` accepted as the pending command (30_encoding.md R82), with the engine's turn next (log 7). -/
def State.withPending (s : State) (cw : Word) : State :=
  (s.accept cw).setEvents (.engine :: s.events)

end Sys2Proof.Machine
end

