-- ==== Sys2Proof/Machine/Step.lean ====
section
/-! DEFINITION. The machine's step, and the state in which a given command word is the one the next step runs. -/

namespace Sys2Proof.Machine

/-- One step of the machine (00_scope.md R15). -/
def step (s : State) : Host.Outcome State Fault Refusal := stepOnce s

/-- `s` with the command word of the opcode table's bits `w` pending and the engine's turn next, so that the next step
runs exactly it (log 7). -/
def State.withFetchWord (s : State) (nbits w : Nat) : State := s.withPending (commandWord nbits w)

end Sys2Proof.Machine
end

