-- ==== Sys2Proof/Machine/Datapath.lean ====
section
/-! DEFINITION. The engine's datapath inside one command, tick by tick (spec/10_state.md R37, R38): the SHA-1 working
registers, schedule, round counter, block index and padded block, and the sequencer's accumulator and bit index. It
exists only while BUSY = 1 and nothing observes it, so State leaves it out as R39 allows and a command is one step
(log 1). `Obligations.DatapathRefinesTheCommands` says that its last tick gives what the command writes. -/

namespace Sys2Proof.Machine

/-- SHA-1 datapath state (10_state.md R37), with the chaining words of the block under way (40_sha1.md R108: h). -/
structure ShaDatapath where
  /-- A, B, C, D, E. -/
  regs : Working
  /-- W[0..79] of the block under way. -/
  w : List Word
  /-- The round counter, 0 to 79. -/
  t : Nat
  /-- The block index. -/
  block : Nat
  /-- The blocks the command compresses: MSG, or the one or two padded blocks of SHA_FINAL. -/
  padded : List (Vector Word 16)
  /-- The chaining words from before the block. -/
  h : Vector Word 5
deriving DecidableEq, Repr

/-- The datapath at the start of block `block` (40_sha1.md R99, R100). -/
def ShaDatapath.load (h : Vector Word 5) (padded : List (Vector Word 16)) (block : Nat) : ShaDatapath :=
  { regs := ⟨h[0], h[1], h[2], h[3], h[4]⟩
    w := schedule (padded.getD block (Vector.replicate 16 0))
    t := 0
    block := block
    padded := padded
    h := h }

/-- The working registers after the round under way (40_sha1.md R100). -/
def ShaDatapath.roundResult (d : ShaDatapath) : Working := shaRound d.t (d.w.getD d.t 0) d.regs

/-- One tick: a round; after round 79 the feed-forward too, and then the next block or the result (40_sha1.md R100,
R101, R108). -/
def ShaDatapath.tick (d : ShaDatapath) : ShaDatapath ⊕ Vector Word 5 :=
  if d.t < 79 then .inl { d with regs := d.roundResult, t := d.t + 1 }
  else if d.block + 1 < d.padded.length then
    .inl (ShaDatapath.load (feedForward d.h d.roundResult) d.padded (d.block + 1))
  else .inr (feedForward d.h d.roundResult)

/-- `n` ticks, or as many as give the result. -/
def ShaDatapath.run : Nat → ShaDatapath → ShaDatapath ⊕ Vector Word 5
  | 0, d => .inl d
  | n + 1, d =>
    match d.tick with
    | .inl d' => ShaDatapath.run n d'
    | .inr h => .inr h

/-- The datapath as a SHA command takes it up, for the commands that compress (40_sha1.md R107 to R109). -/
def shaStart (i : Instr) (s : State) : Option ShaDatapath :=
  match i with
  | .shaBlock | .shaCompress => some (ShaDatapath.load s.h [s.msg] 0)
  | .shaFinal nb =>
    some (ShaDatapath.load s.h ((blocks (finalBytes s.msg nb (s.len.toNat + 8 * nb))).map blockWords) 0)
  | .shaInit | .modexp | .digestToBase | .cmpDigest => none

/-- Modexp datapath state (10_state.md R38). MM's own state is MM's (00_scope.md R5). -/
structure ModexpDatapath where
  /-- The accumulator R. -/
  r : Nat
  /-- How many exponent bits are still to come: the next bit index is one less. -/
  i : Nat
deriving DecidableEq, Repr

/-- The sequencer at its start (41_modexp.md R130). -/
def ModexpDatapath.start (e n : Nat) : ModexpDatapath := ⟨1 % n, bitlen e⟩

/-- One tick: one exponent bit, or the result when none is left (41_modexp.md R130). -/
def ModexpDatapath.tick (mm : Nat → Nat → Nat → Nat) (nw b e n : Nat) (d : ModexpDatapath) : ModexpDatapath ⊕ Nat :=
  match d.i with
  | 0 => .inr (d.r % 2 ^ (32 * nw))
  | i + 1 => .inl ⟨if e.testBit i then mm (mm d.r d.r n) b n else mm d.r d.r n, i⟩

/-- `k` ticks, or as many as give the result. -/
def ModexpDatapath.run (mm : Nat → Nat → Nat → Nat) (nw b e n : Nat) : Nat → ModexpDatapath → ModexpDatapath ⊕ Nat
  | 0, d => .inl d
  | k + 1, d =>
    match d.tick mm nw b e n with
    | .inl d' => ModexpDatapath.run mm nw b e n k d'
    | .inr r => .inr r

end Sys2Proof.Machine
end

