-- ==== Sys2Proof/Machine/HostProgram.lean ====
section
/-! DEFINITION. The host's syntax and the pseudo-operations, as the events they expand to (spec/30_encoding.md R87, R88;
20_memory.md R60), and the source's operations as the host runs them, stopping at a `wait` that ends with ERR = 1
(41_modexp.md R135). A `wait` is the host's polling loop: `polls` reads of STATUS find BUSY = 1, the engine completes, and
one more read ends it (log 17). -/

namespace Sys2Proof.Machine

/-- `wr REG, v` (30_encoding.md R87). -/
def wr (r : Reg) (v : Word) : Event := .access ⟨r.offset, .bytes 4, .write v⟩

/-- `rd REG` (30_encoding.md R87). -/
def rd (r : Reg) : Event := .access ⟨r.offset, .bytes 4, .read⟩

/-- `cmd MNEMONIC` (30_encoding.md R87). -/
def cmd (i : Instr) : Event := wr .cmd (encode i)

/-- `wait` (30_encoding.md R88). -/
def wait (polls : Nat) : List Event := List.replicate polls (rd .status) ++ [.engine, rd .status]

/-- `clr` (30_encoding.md R88). -/
def clr : List Event := [wr .status 0x0000000E]

/-- `srst` (30_encoding.md R88). -/
def srst : List Event := [wr .ctrl 0x00000002]

/-- The write of word `i` of MSG; the buffer has 16 words. -/
def wrMsg (p : List Byte) (i : Fin 16) : Event := wr (.msg i) (packWord p i.val)

/-- `ldmsg "p"`: the first ceil(|p|/4) words of MSG, at most 16 (30_encoding.md R88). -/
def ldmsg (p : List Byte) : List Event :=
  ((List.finRange 16).take ((p.length + 3) / 4)).map (wrMsg p)

/-- `ldop X, n` for the operand whose words are `mk 0, mk 1, …` (30_encoding.md R88). -/
def ldop (nw : Nat) (mk : Nat → Reg) (n : Nat) : List Event :=
  (List.range nw).map fun i => wr (mk i) (BitVec.ofNat 32 (n / 2 ^ (32 * i)))

/-- `rdop X` (30_encoding.md R88). -/
def rdop (nw : Nat) (mk : Nat → Reg) : List Event := (List.range nw).map fun i => rd (mk i)

/-- `rddig` (30_encoding.md R88). -/
def rddig : List Event := [rd (.h 0), rd (.h 1), rd (.h 2), rd (.h 3), rd (.h 4)]

/-- A command and the wait for it. -/
def cmdWait (i : Instr) (polls : Nat) : List Event := cmd i :: wait polls

/-- The full blocks of `sha "p"`, blocks 0 to `k - 1` (30_encoding.md R88). -/
def shaFullBlocks (polls : Nat → Nat) (p : List Byte) (k : Nat) : List Event :=
  (List.range k).flatMap fun j => ldmsg (blockOf p j) ++ cmdWait .shaBlock (polls (j + 1))

/-- `sha "p"` (30_encoding.md R88); `polls` says how many polls each wait makes before its command completes. -/
def sha (polls : Nat → Nat) (p : List Byte) : List Event :=
  cmdWait .shaInit (polls 0) ++ shaFullBlocks polls p (p.length / 64)
    ++ ldmsg (blockOf p (p.length / 64))
    ++ cmdWait (.shaFinal (p.length % 64)) (polls (p.length / 64 + 1))

/-! ### Operand bytes and the source's operations -/

/-- The integer of a byte block, its first byte most significant (20_memory.md R60). -/
def bytesValue (b : List Byte) : Nat := b.foldl (fun n x => 256 * n + x.toNat) 0

/-- Byte j of a byte block counted from its last; a byte before the first counts as 0 (20_memory.md R60). -/
def byteFromLast (b : List Byte) (j : Nat) : Byte := if j < b.length then b.getD (b.length - 1 - j) 0 else 0

/-- The word that software writes to X[i] for a byte block (20_memory.md R60). -/
def operandWord (b : List Byte) (i : Nat) : Word :=
  byteFromLast b (4 * i + 3) ++ byteFromLast b (4 * i + 2) ++ byteFromLast b (4 * i + 1) ++ byteFromLast b (4 * i)

/-- A byte block of at most 4 · `nw` bytes loaded into an operand (20_memory.md R60). -/
def ldopBytes (nw : Nat) (mk : Nat → Reg) (b : List Byte) : List Event :=
  (List.range nw).map fun i => wr (mk i) (operandWord b i)

/-- The stages of `sha "p"`: each ends with one of its waits, and together they are its events. -/
def shaStages (polls : Nat → Nat) (p : List Byte) : List (List Event) :=
  cmdWait .shaInit (polls 0)
    :: (List.range (p.length / 64)).map (fun j => ldmsg (blockOf p j) ++ cmdWait .shaBlock (polls (j + 1)))
    ++ [ldmsg (blockOf p (p.length / 64)) ++ cmdWait (.shaFinal (p.length % 64)) (polls (p.length / 64 + 1))]

/-- A sequence of 41_modexp.md R135: stages that each end with a `wait`, and the accesses after the last wait. -/
structure HostSequence where
  stages : List (List Event)
  last : List Event
deriving DecidableEq, Repr

/-- All events of a sequence, as they come when no wait stops it. -/
def HostSequence.events (q : HostSequence) : List Event := q.stages.flatten ++ q.last

/-- How the host left a sequence. -/
inductive HostEnd where
  /-- It reached the sequence's end. -/
  | completed (s : State)
  /-- A `wait` ended with ERR = 1, and the host went no further (41_modexp.md R135). -/
  | stopped (s : State)
deriving DecidableEq, Repr

/-- The block after the host's events `l`, brought before whatever else waits at the pins. -/
def State.runEvents (s : State) (l : List Event) : Host.Outcome State Fault Refusal :=
  Host.Core.run Sys2Proof.core l.length (s.setEvents (l ++ s.events))

/-- Bit `b` of the word the host read last. -/
def State.lastReadBit (s : State) (b : Nat) : Bool :=
  match s.responses with
  | .data v :: _ => v.getLsbD b
  | _ => false

/-- The host runs stage after stage, and after the wait of each it stops if the STATUS word that ended the wait has ERR
(bit 2) set (41_modexp.md R135). -/
def runStages : List (List Event) → List Event → State → Host.Outcome HostEnd Fault Refusal
  | [], last, s =>
    match s.runEvents last with
    | .next t => .next (.completed t)
    | .fault r => .fault r
    | .refused r => .refused r
  | l :: ls, last, s =>
    match s.runEvents l with
    | .next t => if t.lastReadBit 2 then .next (.stopped t) else runStages ls last t
    | .fault r => .fault r
    | .refused r => .refused r

/-- A sequence as the host runs it (41_modexp.md R135). -/
def HostSequence.run (q : HostSequence) (s : State) : Host.Outcome HostEnd Fault Refusal :=
  runStages q.stages q.last s

/-- The stage that loads the three operands, issues MODEXP and waits for it (41_modexp.md R135). -/
def modexpStage (nw polls v e n : Nat) : List Event :=
  ldop nw .base v ++ ldop nw .exp e ++ ldop nw .mod n ++ cmdWait .modexp polls

/-- `encryptBlock(v, e, n)` (41_modexp.md R135). -/
def encryptBlock (nw polls v e n : Nat) : HostSequence := ⟨[modexpStage nw polls v e n], rdop nw .res⟩

/-- `decryptBlock(v, d, n)`: the same with the exponent d (41_modexp.md R135). -/
def decryptBlock (nw polls v d n : Nat) : HostSequence := encryptBlock nw polls v d n

/-- The certificate signature: the same on `bind` with the issuer's exponent and modulus (41_modexp.md R135). -/
def certificateSignature (nw polls bind issuerSigningExponent issuerModulus : Nat) : HostSequence :=
  encryptBlock nw polls bind issuerSigningExponent issuerModulus

/-- `sign(m)` (41_modexp.md R135); `p` and `q` are the polls of its last two waits. -/
def sign (polls : Nat → Nat) (nw p q : Nat) (m : List Byte) (e n : Nat) : HostSequence :=
  ⟨shaStages polls m ++ [cmdWait .digestToBase p, ldop nw .exp e ++ ldop nw .mod n ++ cmdWait .modexp q],
    rdop nw .res⟩

/-- `verify(signature, m)` (41_modexp.md R135); `p` and `q` are the polls of its first and last wait. -/
def verify (polls : Nat → Nat) (nw p q signature e n : Nat) (m : List Byte) : HostSequence :=
  ⟨modexpStage nw p signature e n :: shaStages polls m ++ [cmdWait .cmpDigest q], [rd .status]⟩

/-- What software reports for `verify`: MATCH, bit 4 of the STATUS word read last, and false where the sequence stopped
(41_modexp.md R135: "software must then report verify as false"). -/
def verifyReport : HostEnd → Bool
  | .completed t => t.lastReadBit 4
  | .stopped _ => false

end Sys2Proof.Machine
end

