-- ==== Sys2Proof/Safety.lean ====
section
/-! DEFINITION. The terms claims use: the invariant of the machine's states, the named property of the multiplier, and
what a run that goes well looks like. -/

namespace Sys2Proof.Machine

/-- The named property `MMCorrect` (41_modexp.md R128). Nothing in the model assumes it. -/
def MMCorrect (mm : Nat → Nat → Nat → Nat) : Prop :=
  ∀ a b n, n % 2 = 1 → a < n → b < n → mm a b n = a * b % n

/-- An operand memory of `nw` words in its canonical form. -/
def Memory.fits (nw : Nat) (m : Memory) : Prop := m.wf = true ∧ m.below nw = true

/-- What holds in every state the block can be in. -/
structure State.Inv (s : State) : Prop where
  /-- The operand width is one an instance can have (00_scope.md R7). -/
  widthLow : 5 ≤ s.rsaNw
  widthHigh : s.rsaNw ≤ 1024
  /-- `STATUS.BUSY = 1` exactly when PEND is not empty (10_state.md R36). -/
  busyIffPending : s.status.busy = s.pend.isSome
  /-- DONE is cleared at acceptance and set at completion (10_state.md R23). -/
  doneIdle : s.status.done = true → s.status.busy = false
  /-- MATCH is cleared at acceptance (10_state.md R23). -/
  matchIdle : s.status.cmpMatch = true → s.status.busy = false
  /-- MATCH stands only after the successful completion of CMP_DIGEST (41_modexp.md R134). -/
  matchSucceeded : s.status.cmpMatch = true → s.status.errcode = 0
  /-- ERRCODE 6 to 15 are never produced (60_exceptions.md R147). -/
  errcodeLegal : s.status.errcode.toNat ≤ 5
  /-- The operand memories hold exactly words 0 to RSA_NW - 1, in canonical form (20_memory.md R52). -/
  baseFits : s.base.fits s.rsaNw
  expFits : s.exp.fits s.rsaNw
  modFits : s.mod.fits s.rsaNw
  resFits : s.res.fits s.rsaNw

/-- No command is pending: BUSY = 0 and PEND is empty (10_state.md R36). -/
def State.idle (s : State) : Prop := s.status.busy = false ∧ s.pend = none

/-- The engine moves next: the pins bring nothing, or the engine's turn. -/
def State.engineNext (s : State) : Prop := s.events = [] ∨ s.events.head? = some .engine

/-- Two states that agree on everything but EXP. -/
def State.sameButExp (s t : State) : Prop := s.setExp [] = t.setExp []

end Sys2Proof.Machine
end

