-- ==== Sys2Proof/Certificates/Slice0/Obligations.lean ====
section
/-! DEFINITION. The statements for the provers, from the numbered rules of spec/: encoding, the seven commands, the
sequencer and the digest, the bus, reset, and the rules of the whole machine. -/

open Sys2Proof Sys2Proof.Machine

/-! ### Encoding (spec/30_encoding.md) -/

/-- The 23 command words of 95_test_vectors.md V22, legal and illegal, decode as listed there (30_encoding.md R76,
R79). -/
def Obligations.SpecCommandWordsDecode : Prop :=
  decode 0x00000001 = .ok .shaInit ∧ decode 0x00000002 = .ok .shaBlock ∧
  decode 0x00000003 = .ok (.shaFinal 0) ∧ decode 0x00000303 = .ok (.shaFinal 3) ∧
  decode 0x00003703 = .ok (.shaFinal 55) ∧ decode 0x00003F03 = .ok (.shaFinal 63) ∧
  decode 0x00000004 = .ok .shaCompress ∧ decode 0x00000008 = .ok .modexp ∧
  decode 0x00000009 = .ok .digestToBase ∧ decode 0x0000000A = .ok .cmpDigest ∧
  decode 0x00000000 = .error .undefinedOp ∧ decode 0x00000005 = .error .undefinedOp ∧
  decode 0x00000006 = .error .undefinedOp ∧ decode 0x00000007 = .error .undefinedOp ∧
  decode 0x0000000B = .error .undefinedOp ∧ decode 0x0000000F = .error .undefinedOp ∧
  decode 0x00000013 = .error .reservedLow ∧ decode 0x00000083 = .error .reservedLow ∧
  decode 0x00000102 = .error .nbNotZero ∧ decode 0x00000108 = .error .nbNotZero ∧
  decode 0x00004003 = .error .reservedHigh ∧ decode 0x80000001 = .error .reservedHigh ∧
  decode 0xFFFFFFFF = .error .reservedHigh

/-- Decoding the word of a well-formed command gives the command back, NB at every value (30_encoding.md R76, R77,
R79, R87). -/
def Obligations.DecodeInvertsEncode : Prop :=
  ∀ i : Instr, i.wf = true → decode (encode i) = .ok i

/-- The other direction: a word that decodes is the word of what it decodes to, and that is well-formed, so each word
has one meaning (30_encoding.md R76, R79). -/
def Obligations.EncodeInvertsDecode : Prop :=
  ∀ (cw : Word) (i : Instr), decode cw = .ok i → encode i = cw ∧ i.wf = true

/-- 30_encoding.md R76: for each row of the opcode map, written out, a word decodes to the row's command exactly when it
equals the row's value on every bit of the row's mask. -/
def Obligations.OpcodeMapSelectsTheCommand : Prop :=
  ∀ cw : Word, ∀ row ∈ ([⟨"SHA_INIT", 0xFFFFFFFF, 0x00000001⟩, ⟨"SHA_BLOCK", 0xFFFFFFFF, 0x00000002⟩,
      ⟨"SHA_FINAL", 0xFFFFC0FF, 0x00000003⟩, ⟨"SHA_COMPRESS", 0xFFFFFFFF, 0x00000004⟩,
      ⟨"MODEXP", 0xFFFFFFFF, 0x00000008⟩, ⟨"DIGEST_TO_BASE", 0xFFFFFFFF, 0x00000009⟩,
      ⟨"CMP_DIGEST", 0xFFFFFFFF, 0x0000000A⟩] : List OpcodeRow),
    cw &&& row.mask = row.value ↔ ∃ i, decode cw = .ok i ∧ i.mnemonic = row.mnemonic

/-- 30_encoding.md R78: the four causes of an illegal word, that it is accepted like any other, and that it completes
with ILLEGAL_CMD and changes nothing but STATUS (and PEND, which every completion empties). That an empty event list
gives the engine its turn is the model's choice (log 2). -/
def Obligations.IllegalWordsCompleteWithIllegalCmd : Prop :=
  ∀ cw : Word,
    ((∃ e, decode cw = .error e) ↔
      (cw.extractLsb' 14 18 ≠ 0 ∨ cw.extractLsb' 4 4 ≠ 0 ∨
        (cw.extractLsb' 0 4).toNat ∈ [0x0, 0x5, 0x6, 0x7, 0xB, 0xC, 0xD, 0xE, 0xF] ∨
        (cw.extractLsb' 0 4 ≠ 0x3 ∧ cw.extractLsb' 8 6 ≠ 0))) ∧
    (∀ e, decode cw = .error e → ∀ s : State,
      (s.status.busy = false → s.handleAccess ⟨0x00C, .bytes 4, .write cw⟩ =
        { s with
          pend := some cw, status := { s.status with busy := true, done := false, cmpMatch := false },
          responses := .written :: s.responses }) ∧
      (s.engineNext → s.pend = some cw → step s = .next
        { s with
          events := s.events.tail, pend := none,
          status := { s.status with busy := false, done := true, err := true, errcode := 1 } }))

/-- 30_encoding.md R79: exactly 70 words decode to a command. -/
def Obligations.SeventyWordsAreLegal : Prop :=
  ∃ l : List Word, l.Nodup ∧ l.length = 70 ∧ ∀ cw : Word, cw ∈ l ↔ ∃ i, decode cw = .ok i

/-! ### The step and the command lifecycle (spec/30_encoding.md R81 to R86) -/

/-- When the pending word decodes to a command and the engine moves next, the step is `exec` of the command, at the
state whose engine event, if there is one, is used up (30_encoding.md R84). That an empty event list gives the engine
its turn is the model's choice (log 2). -/
def Obligations.StepRunsThePendingCommand : Prop :=
  ∀ (s : State) (cw : Word) (i : Instr), s.engineNext → s.pend = some cw → decode cw = .ok i → i.wf = true →
    step s = exec i { s with events := s.events.tail }

/-- A word placed by `withFetchWord` is the one the very next step runs. How a word comes to be pending is the model's
convention (log 7). -/
def Obligations.FetchWordIsTheNextToRun : Prop :=
  ∀ (s : State) (nbits w : Nat) (i : Instr), decodeTableWord nbits w = some i →
    step (s.withFetchWord nbits w) = exec i
      { s with
        pend := some (BitVec.ofNat 32 (w % 2 ^ nbits)),
        status := { s.status with busy := true, done := false, cmpMatch := false } }

/-- Nothing stops the machine: no state has a step that faults or is refused. Bus errors, command errors and overruns
are the only abnormal events, and the block goes on after each (60_exceptions.md R145, R150; log 4). -/
def Obligations.EveryStepGivesANextState : Prop :=
  ∀ s : State, ∃ t, step s = .next t

/-- An idle engine's turn changes nothing (10_state.md R40), and a state with nothing pending and nothing at the pins
steps to itself (the model's choice, log 7). -/
def Obligations.IdleEngineTurnChangesNothing : Prop :=
  ∀ s : State, s.pend = none → s.engineNext → step s = .next { s with events := s.events.tail }

/-- 30_encoding.md R84: every command, in every state, completes: BUSY 0, DONE 1, PEND empty, ERR set exactly by a
nonzero code and otherwise kept, OVR and CTRL kept, the pins untouched. -/
def Obligations.EveryCommandCompletes : Prop :=
  ∀ (i : Instr) (s : State), ∃ t, exec i s = .next t ∧
    t.status.busy = false ∧ t.status.done = true ∧ t.pend = none ∧
    t.status.err = (s.status.err || decide (t.status.errcode ≠ 0)) ∧
    t.status.ovr = s.status.ovr ∧ t.ie = s.ie ∧ t.rsaNw = s.rsaNw ∧
    t.events = s.events ∧ t.responses = s.responses ∧ t.draws = s.draws

/-- 60_exceptions.md R146: a command that completes with an error, and an illegal word, write STATUS as said and
nothing else: H, LEN, MSG, BASE, EXP, MOD, RES and CTRL keep their values, and MATCH is not set. -/
def Obligations.CommandErrorsChangeOnlyStatus : Prop :=
  ∀ s : State,
    (∀ i t, exec i s = .next t → t.status.errcode ≠ 0 →
      t = { s with
        pend := none,
        status := { s.status with busy := false, done := true, err := true, errcode := t.status.errcode } }) ∧
    (∀ cw e t, decode cw = .error e → runWord cw s = .next t →
      t = { s with
        pend := none, status := { s.status with busy := false, done := true, err := true, errcode := 1 } })

/-- 60_exceptions.md R147: which codes a command can complete with, one that finds ERRCODE at a legal value or not. -/
def Obligations.EachCommandHasItsOwnErrorCodes : Prop :=
  ∀ (i : Instr) (s t : State), exec i s = .next t →
    match i with
    | .shaInit | .shaCompress | .digestToBase | .cmpDigest => t.status.errcode = 0
    | .shaBlock => t.status.errcode = if 2 ^ 64 - 1 < s.len.toNat + 512 then 2 else 0
    | .shaFinal nb => t.status.errcode = if 2 ^ 64 - 1 < s.len.toNat + 8 * nb then 2 else 0
    | .modexp => t.status.errcode =
        if s.mod.val = 0 then 3
        else if s.mod.val % 2 = 0 then 4
        else if s.mod.val ≤ s.base.val then 5 else 0

/-- What each command leaves alone: no command writes MSG, EXP, MOD or CTRL; only a SHA command writes H, only three of
them LEN, only DIGEST_TO_BASE BASE, only MODEXP RES, only CMP_DIGEST MATCH (10_state.md R27 to R34). -/
def Obligations.CommandsWriteOnlyTheirOutputs : Prop :=
  ∀ (i : Instr) (s t : State), exec i s = .next t →
    t.msg = s.msg ∧ t.exp = s.exp ∧ t.mod = s.mod ∧ t.ie = s.ie ∧
    (i = .modexp ∨ i = .digestToBase ∨ i = .cmpDigest → t.h = s.h ∧ t.len = s.len) ∧
    (i = .shaCompress → t.len = s.len) ∧
    (i ≠ .digestToBase → t.base = s.base) ∧
    (i ≠ .modexp → t.res = s.res) ∧
    (i ≠ .cmpDigest → t.status.cmpMatch = s.status.cmpMatch)

/-- A pending command completes once the pins' events have passed (30_encoding.md R86): within one step more than there
are events the engine is idle, and if no event is a reset it is by the completion that sets DONE. The event list is the
model's (log 2). -/
def Obligations.PendingCommandCompletes : Prop :=
  ∀ (s : State) (cw : Word), s.pend = some cw → s.status.busy = true → s.rsaNw ≤ 1024 →
    ∃ k t, k ≤ s.events.length + 1 ∧ Host.Core.run Sys2Proof.core k s = .next t ∧ t.idle ∧
      ((∀ e ∈ s.events, e ≠ .hwReset ∧ ∀ v : Word, v.getLsbD 1 = true → e ≠ .access ⟨0x004, .bytes 4, .write v⟩) →
        t.status.done = true)

/-! ### The SHA-1 commands (spec/40_sha1.md) -/

/-- 40_sha1.md R106: SHA_INIT sets H to the initial value and LEN to 0, and changes nothing else but the completion's
flags. -/
def Obligations.ShaInitStartsAMessage : Prop :=
  decode 0x00000001 = .ok .shaInit ∧ ∀ s : State,
    exec .shaInit s = .next
      { s with
        h := #v[0x67452301, 0xEFCDAB89, 0x98BADCFE, 0x10325476, 0xC3D2E1F0], len := 0, pend := none,
        status := { s.status with busy := false, done := true, errcode := 0 } }

/-- 40_sha1.md R107: SHA_BLOCK compresses MSG into H and adds 512 to LEN, or fails with LEN_OVF and no effect when the
exact sum exceeds 2^64 - 1. -/
def Obligations.ShaBlockCompressesAndCounts : Prop :=
  decode 0x00000002 = .ok .shaBlock ∧ ∀ s : State,
    (s.len.toNat + 512 ≤ 2 ^ 64 - 1 → exec .shaBlock s = .next
      { s with
        h := compress s.h s.msg, len := s.len + 512, pend := none,
        status := { s.status with busy := false, done := true, errcode := 0 } }) ∧
    (2 ^ 64 - 1 < s.len.toNat + 512 → exec .shaBlock s = .next
      { s with
        pend := none, status := { s.status with busy := false, done := true, err := true, errcode := 2 } })

/-- 40_sha1.md R108: SHA_FINAL builds the padded tail P byte by byte, compresses its one or two blocks into H and sets
LEN to the exact total, or fails with LEN_OVF and no effect. -/
def Obligations.ShaFinalPadsAndCompresses : Prop :=
  ∀ nb ≤ 63, decode (BitVec.ofNat 32 (0x003 + 0x100 * nb)) = .ok (.shaFinal nb) ∧ ∀ s : State,
    (2 ^ 64 - 1 < s.len.toNat + 8 * nb → exec (.shaFinal nb) s = .next
      { s with
        pend := none, status := { s.status with busy := false, done := true, err := true, errcode := 2 } }) ∧
    (s.len.toNat + 8 * nb ≤ 2 ^ 64 - 1 → ∃ p : List Byte,
      p.length = (if nb ≤ 55 then 64 else 128) ∧
      (∀ k < nb, p.getD k 0 = (s.msg.toList.getD (k / 4) 0).extractLsb' (24 - 8 * (k % 4)) 8) ∧
      p.getD nb 0 = 0x80 ∧
      (∀ k, nb < k → k < p.length - 8 → p.getD k 0 = 0) ∧
      (∀ j < 8, p.getD (p.length - 8 + j) 0 =
        (BitVec.ofNat 64 (s.len.toNat + 8 * nb)).extractLsb' (56 - 8 * j) 8) ∧
      exec (.shaFinal nb) s = .next
        { s with
          h := if nb ≤ 55 then compress s.h (blockWords p)
            else compress (compress s.h (blockWords (p.take 64))) (blockWords (p.drop 64)),
          len := BitVec.ofNat 64 (s.len.toNat + 8 * nb), pend := none,
          status := { s.status with busy := false, done := true, errcode := 0 } })

/-- SHA_FINAL finishes the digest: with the blocks of `pre` compressed from the initial value, LEN their length and the
tail in MSG, it leaves SHA1(pre ++ tail) in H and the total length in LEN (40_sha1.md R103, R104, R108). -/
def Obligations.ShaFinalFinishesTheDigest : Prop :=
  ∀ (s : State) (pre tail : List Byte), pre.length % 64 = 0 → tail.length ≤ 63 →
    8 * (pre.length + tail.length) ≤ 2 ^ 64 - 1 → s.h = compressBlocks iv (blocks pre) →
    s.len.toNat = 8 * pre.length → msgBytes s.msg tail.length = tail →
    ∃ t, exec (.shaFinal tail.length) s = .next t ∧ t.h = sha1 (pre ++ tail) ∧
      t.len.toNat = 8 * (pre ++ tail).length ∧ t.status.errcode = 0

/-- SHA_FINAL ignores the message bytes from NB on, whatever they hold (40_sha1.md R108; 93 U20): two messages that agree
on the first NB bytes give the same next state but for MSG itself. -/
def Obligations.ShaFinalIgnoresBytesFromNbOn : Prop :=
  ∀ nb ≤ 63, ∀ (s : State) (m : Vector Word 16), msgBytes m nb = msgBytes s.msg nb →
    ∃ t, exec (.shaFinal nb) s = .next t ∧ exec (.shaFinal nb) { s with msg := m } = .next { t with msg := m }

/-- 40_sha1.md R109: SHA_COMPRESS compresses MSG into H and neither reads nor writes LEN. -/
def Obligations.ShaCompressLeavesLenAlone : Prop :=
  decode 0x00000004 = .ok .shaCompress ∧ ∀ s : State, ∀ l : BitVec 64,
    exec .shaCompress { s with len := l } = .next
      { s with
        h := compress s.h s.msg, len := l, pend := none,
        status := { s.status with busy := false, done := true, errcode := 0 } }

/-- 40_sha1.md R99: the schedule has 80 words, the block's 16 first, then the recurrence. -/
def Obligations.ScheduleFollowsTheRecurrence : Prop :=
  ∀ m : Vector Word 16,
    (schedule m).length = 80 ∧
    (∀ t : Fin 16, (schedule m).getD t.val 0 = m[t.val]) ∧
    (∀ t, 16 ≤ t → t < 80 → (schedule m).getD t 0 =
      rotl32 ((schedule m).getD (t - 3) 0 ^^^ (schedule m).getD (t - 8) 0 ^^^ (schedule m).getD (t - 14) 0
        ^^^ (schedule m).getD (t - 16) 0) 1)

/-- The compression function is eighty rounds on the schedule and the feed-forward, with the round functions and the
round constants written out by quartile, the rotation bit by bit, and Ch and Maj equal to their exclusive-or forms
(00_scope.md R9; 40_sha1.md R96, R97, R100 to R102; 93 G11). -/
def Obligations.CompressionIsEightyRounds : Prop :=
  let f := fun (t : Nat) (b c d : Word) =>
    if t < 20 then (b &&& c) ||| (~~~b &&& d)
    else if t < 40 then b ^^^ c ^^^ d
    else if t < 60 then (b &&& c) ||| (b &&& d) ||| (c &&& d)
    else b ^^^ c ^^^ d
  let k := fun t : Nat =>
    (if t < 20 then 0x5A827999 else if t < 40 then 0x6ED9EBA1 else if t < 60 then 0x8F1BBCDC else 0xCA62C1D6 : Word)
  (∀ t < 80, ∀ b c d : Word, roundFn t b c d = f t b c d ∧ roundConst t = k t) ∧
  (∀ b c d : Word,
    roundFn 0 b c d = (b &&& c) ^^^ (~~~b &&& d) ∧ roundFn 40 b c d = (b &&& c) ^^^ (b &&& d) ^^^ (c &&& d)) ∧
  (∀ (x : Word) (n j : Nat), n < 32 → j < 32 → (rotl32 x n).getLsbD j = x.getLsbD ((j + 32 - n) % 32)) ∧
  ∀ (h : Vector Word 5) (m : Vector Word 16), ∃ w : Nat → Working,
    w 0 = ⟨h[0], h[1], h[2], h[3], h[4]⟩ ∧
    (∀ t < 80, w (t + 1) =
      { a := rotl32 (w t).a 5 + f t (w t).b (w t).c (w t).d + (w t).e + k t + (schedule m).getD t 0
        b := (w t).a, c := rotl32 (w t).b 30, d := (w t).c, e := (w t).d }) ∧
    compress h m = #v[h[0] + (w 80).a, h[1] + (w 80).b, h[2] + (w 80).c, h[3] + (w 80).d, h[4] + (w 80).e]

/-- 40_sha1.md R103: the shape of the padding, that it is the least that reaches 448 mod 512 bits, the big-endian length,
and the number of blocks. -/
def Obligations.PaddingHasTheSpecsShape : Prop :=
  ∀ m : List Byte, 8 * m.length ≤ 2 ^ 64 - 1 →
    ∃ z ≤ 63, (pad m).length = m.length + 1 + z + 8 ∧ (pad m).length % 64 = 0 ∧
      8 * (m.length + 1 + z) % 512 = 448 ∧ (∀ z' < z, 8 * (m.length + 1 + z') % 512 ≠ 448) ∧
      (∀ k < m.length, (pad m).getD k 0 = m.getD k 0) ∧ (pad m).getD m.length 0 = 0x80 ∧
      (∀ k, m.length < k → k < m.length + 1 + z → (pad m).getD k 0 = 0) ∧
      (∀ j < 8, (pad m).getD (m.length + 1 + z + j) 0 =
        (BitVec.ofNat 64 (8 * m.length)).extractLsb' (56 - 8 * j) 8) ∧
      (blocks (pad m)).length = (if m.length % 64 ≤ 55 then m.length / 64 + 1 else m.length / 64 + 2)

/-- The digests of "" and "abc" (40_sha1.md R105), computed by the rules. -/
def Obligations.KnownDigests : Prop :=
  sha1 [] = #v[0xDA39A3EE, 0x5E6B4B0D, 0x3255BFEF, 0x95601890, 0xAFD80709] ∧
  sha1 [0x61, 0x62, 0x63] = #v[0xA9993E36, 0x4706816A, 0xBA3E2571, 0x7850C26C, 0x9CD0D89D]

/-- 40_sha1.md R110: the command sequence that hashes any byte string, through the bus and with any number of polls at
each wait, ends with its digest in H, its length in LEN, ERRCODE 0 and DONE 1, and leaves the operand memories alone. That
a wait is a number of polls and then the engine's turn is the model's form of it (log 17). -/
def Obligations.CommandSequenceComputesTheDigest : Prop :=
  ∀ (p : List Byte) (polls : Nat → Nat) (s : State) (rest : List Event),
    8 * p.length ≤ 2 ^ 64 - 1 → s.rsaNw ≤ 1024 → s.idle → s.events = sha polls p ++ rest →
    ∃ t, Host.Core.run Sys2Proof.core (sha polls p).length s = .next t ∧
      t.h = sha1 p ∧ t.len.toNat = 8 * p.length ∧ t.status.errcode = 0 ∧ t.status.done = true ∧ t.idle ∧
      t.events = rest ∧ t.base = s.base ∧ t.exp = s.exp ∧ t.mod = s.mod ∧ t.res = s.res

/-! ### The modexp wrapper and the digest bridge (spec/41_modexp.md) -/

/-- 41_modexp.md R132: MODEXP's checks in their order, each with its code and no effect, and otherwise every word of RES
from the sequencer's result with the instance's multiplier. -/
def Obligations.ModexpChecksThenWritesRes : Prop :=
  decode 0x00000008 = .ok .modexp ∧ ∀ s : State,
    (s.mod.val = 0 → exec .modexp s = .next
      { s with
        pend := none, status := { s.status with busy := false, done := true, err := true, errcode := 3 } }) ∧
    (s.mod.val ≠ 0 → s.mod.val % 2 = 0 → exec .modexp s = .next
      { s with
        pend := none, status := { s.status with busy := false, done := true, err := true, errcode := 4 } }) ∧
    (s.mod.val % 2 = 1 → s.mod.val ≤ s.base.val → exec .modexp s = .next
      { s with
        pend := none, status := { s.status with busy := false, done := true, err := true, errcode := 5 } }) ∧
    (s.mod.val % 2 = 1 → s.base.val < s.mod.val → ∃ m : Memory, m.fits s.rsaNw ∧
      (∀ i < s.rsaNw, m.read i =
        BitVec.ofNat 32 (modExpSeq Config.mm s.rsaNw s.base.val s.exp.val s.mod.val / 2 ^ (32 * i))) ∧
      exec .modexp s = .next
        { s with
          res := m, pend := none, status := { s.status with busy := false, done := true, errcode := 0 } })

/-- The correctness law of the sequencer, for every multiplier that has the named property (41_modexp.md R128, R131). -/
def Obligations.SequencerComputesThePower : Prop :=
  ∀ (mm : Nat → Nat → Nat → Nat) (nw b e n : Nat), MMCorrect mm → n % 2 = 1 → b < n → n < 2 ^ (32 * nw) →
    modExpSeq mm nw b e n = b ^ e % n

/-- MODEXP with a correct multiplier leaves val(RES) = BASE^EXP mod MOD and code 0, in every state with MOD odd and
BASE < MOD; the command itself is MODEXP with the instance's multiplier (41_modexp.md R125, R131, R132). -/
def Obligations.ModexpLeavesThePowerInRes : Prop :=
  (∀ s : State, exec .modexp s = .next (s.complete (modexpExec Config.mm s))) ∧
  ∀ (mm : Nat → Nat → Nat → Nat) (s : State), MMCorrect mm → s.Inv → s.mod.val % 2 = 1 →
    s.base.val < s.mod.val →
    (s.complete (modexpExec mm s)).res.val = s.base.val ^ s.exp.val % s.mod.val ∧
    (s.complete (modexpExec mm s)).status.errcode = 0

/-- The sequencer is the loop of 41_modexp.md R130, whatever the multiplier answers (R129): R starts at 1 mod N, each
exponent bit from the highest down squares it and, where the bit is 1, multiplies by B, and the result is R modulo
2^(32 · RSA_NW). Its calls are those of the loop, in order; there are bitlen(E) + popcount(E) of them, at most
64 · RSA_NW; bitlen is the least k with E < 2^k (00_scope.md R10); and E = 0 makes no call and gives 1 mod N. -/
def Obligations.SequencerCallCount : Prop :=
  ∀ (mm : Nat → Nat → Nat → Nat) (nw b e n : Nat),
    (∃ r : Nat → Nat, r (bitlen e) = 1 % n ∧
      (∀ i < bitlen e, r i =
        if e / 2 ^ i % 2 = 1 then mm (mm (r (i + 1)) (r (i + 1)) n) b n else mm (r (i + 1)) (r (i + 1)) n) ∧
      modExpSeq mm nw b e n = r 0 % 2 ^ (32 * nw) ∧
      modExpCalls mm b e n = (List.range (bitlen e)).reverse.flatMap fun i =>
        if e / 2 ^ i % 2 = 1 then [⟨r (i + 1), r (i + 1), n⟩, ⟨mm (r (i + 1)) (r (i + 1)) n, b, n⟩]
        else [⟨r (i + 1), r (i + 1), n⟩]) ∧
    (modExpCalls mm b e n).length = bitlen e + (List.range (bitlen e)).countP e.testBit ∧
    (e < 2 ^ (32 * nw) → (modExpCalls mm b e n).length ≤ 2 * 32 * nw) ∧
    e < 2 ^ bitlen e ∧ (∀ k, e < 2 ^ k → bitlen e ≤ k) ∧
    modExpCalls mm b 0 n = [] ∧ modExpSeq mm nw b 0 n = 1 % n % 2 ^ (32 * nw)

/-- With a correct multiplier every call the sequencer makes has the modulus N and both operands below it, so the
property's premise holds at each call (41_modexp.md R128, R136). -/
def Obligations.SequencerCallsStayBelowTheModulus : Prop :=
  ∀ (mm : Nat → Nat → Nat → Nat) (b e n : Nat), MMCorrect mm → n % 2 = 1 → b < n →
    ∀ c ∈ modExpCalls mm b e n, c.n = n ∧ c.x < n ∧ c.y < n

/-- 41_modexp.md R133: DIGEST_TO_BASE puts H[4] to H[0] in BASE[0] to BASE[4] and 0 above, so that val(BASE) = DIG, and
changes nothing else but the completion's flags. -/
def Obligations.DigestToBaseLoadsTheDigest : Prop :=
  decode 0x00000009 = .ok .digestToBase ∧ ∀ s : State, 5 ≤ s.rsaNw → ∃ m : Memory, m.fits s.rsaNw ∧
    m.read 0 = s.h[4] ∧ m.read 1 = s.h[3] ∧ m.read 2 = s.h[2] ∧ m.read 3 = s.h[1] ∧ m.read 4 = s.h[0] ∧
    (∀ i, 5 ≤ i → m.read i = 0) ∧ m.val = digestValue s.h ∧ digestValue s.h < 2 ^ 160 ∧
    exec .digestToBase s = .next
      { s with
        base := m, pend := none, status := { s.status with busy := false, done := true, errcode := 0 } }

/-- 41_modexp.md R134: CMP_DIGEST sets MATCH to whether val(RES) equals the digest's integer, and changes nothing else
but the completion's flags. -/
def Obligations.CmpDigestSetsMatch : Prop :=
  decode 0x0000000A = .ok .cmpDigest ∧ ∀ s : State,
    exec .cmpDigest s = .next
      { s with
        pend := none,
        status := { s.status with
          busy := false, done := true, errcode := 0,
          cmpMatch := decide (s.res.val = s.h[0].toNat * 2 ^ 128 + s.h[1].toNat * 2 ^ 96 + s.h[2].toNat * 2 ^ 64
            + s.h[3].toNat * 2 ^ 32 + s.h[4].toNat) } }

/-- MATCH means that every word agrees: the five digest words in their order and no nonzero word above them
(41_modexp.md R134; 20_memory.md R61). -/
def Obligations.MatchMeansEveryWordAgrees : Prop :=
  ∀ s t : State, s.Inv → exec .cmpDigest s = .next t →
    (t.status.cmpMatch = true ↔
      s.res.read 0 = s.h[4] ∧ s.res.read 1 = s.h[3] ∧ s.res.read 2 = s.h[2] ∧ s.res.read 3 = s.h[1] ∧
      s.res.read 4 = s.h[0] ∧ ∀ i, 5 ≤ i → s.res.read i = 0)

/-- The hash may run before or after MODEXP: a SHA command and MODEXP in either order leave the same registers
(41_modexp.md R135). The flags of the two orders differ, since the last completion writes them. -/
def Obligations.ShaAndModexpCommute : Prop :=
  ∀ (i : Instr) (s : State), i = .shaInit ∨ i = .shaBlock ∨ i = .shaCompress ∨ (∃ nb, i = .shaFinal nb) →
    ∃ a b c d, exec i s = .next a ∧ exec .modexp a = .next b ∧ exec .modexp s = .next c ∧ exec i c = .next d ∧
      b.h = d.h ∧ b.len = d.len ∧ b.res = d.res ∧ { b with status := s.status } = { d with status := s.status }

/-- The engine's datapath, run tick by tick, ends with what the atomic command writes, which is why a command may be one
step (10_state.md R37 to R39; log 1): a SHA command's within 160 ticks, its round counter never above 79 and its block
index never above 1, and the sequencer's after one tick for each exponent bit and one more. With a correct multiplier
R = B^(E div 2^i) mod N all the way (41_modexp.md R131). -/
def Obligations.DatapathRefinesTheCommands : Prop :=
  (∀ (i : Instr) (s t : State) (d : ShaDatapath), i.wf = true → shaStart i s = some d → exec i s = .next t →
    t.status.errcode = 0 →
    ∃ k ≤ 160, d.run k = .inr t.h ∧ ∀ j < k, ∃ d', d.run j = .inl d' ∧ d'.t ≤ 79 ∧ d'.block ≤ 1) ∧
  ∀ (mm : Nat → Nat → Nat → Nat) (nw b e n : Nat),
    (ModexpDatapath.start e n).run mm nw b e n (bitlen e + 1) = .inr (modExpSeq mm nw b e n) ∧
    ∀ j ≤ bitlen e, ∃ d, (ModexpDatapath.start e n).run mm nw b e n j = .inl d ∧ d.i = bitlen e - j ∧
      (MMCorrect mm → n % 2 = 1 → b < n → d.r = b ^ (e / 2 ^ d.i) % n)

/-! ### Operand memories (spec/20_memory.md R52, R60) -/

/-- val(X) is the sum of the words X[i] · 2^(32·i), below 2^(32·RSA_NW), and bit j of X[i] is bit 32·i + j of it
(20_memory.md R60). That the memory is a list in canonical form is the model's choice (log 8). -/
def Obligations.OperandValueIsTheSumOfItsWords : Prop :=
  ∀ (nw : Nat) (m : Memory), m.fits nw →
    m.val = ∑ i ∈ Finset.range nw, (m.read i).toNat * 2 ^ (32 * i) ∧ m.val < 2 ^ (32 * nw) ∧
    (∀ i j, j < 32 → m.val.testBit (32 * i + j) = (m.read i).getLsbD j)

/-- Memories with the same words are the same memory, and loading the integer a memory holds gives the memory back:
the canonical form is one for each contents (log 8; 20_memory.md R60). -/
def Obligations.EqualWordsAreEqualMemories : Prop :=
  ∀ (nw : Nat) (m m' : Memory), m.fits nw → m'.fits nw →
    ((∀ i < nw, m.read i = m'.read i) → m = m') ∧ Memory.ofNat nw m.val = m

/-- A byte block of at most 4 · RSA_NW bytes, loaded word by word as 20_memory.md R60 says, is loaded as its integer, the
first byte most significant. -/
def Obligations.ByteBlocksLoadAsTheirIntegers : Prop :=
  ∀ (nw : Nat) (b : List Byte) (mk : Nat → Reg), b.length ≤ 4 * nw →
    ldopBytes nw mk b = ldop nw mk (bytesValue b) ∧ bytesValue b < 2 ^ (32 * nw)

/-! ### The bus (spec/20_memory.md, spec/10_state.md) -/

/-- 20_memory.md R55: what a read of every register returns, with no side effect: ID, CTRL, STATUS, PARAM exact at any
time, CMD and EXP 0, the engine-owned registers their value while BUSY = 0 and a drawn value while BUSY = 1 (for every
value the draw may have). -/
def Obligations.ReadsReturnWhatTheMapSays : Prop :=
  ∀ s : State, s.rsaNw ≤ 1024 →
    let read := fun a : Nat => s.handleAccess ⟨a, .bytes 4, .read⟩
    let gives := fun (a : Nat) (v : Word) => read a = { s with responses := .data v :: s.responses }
    let drawsAt := fun a : Nat => read a =
      { s with responses := .data (Config.draw s.draws) :: s.responses, draws := s.draws + 1 }
    gives 0x000 0x53314D01 ∧ gives 0x004 (if s.ie then 1 else 0) ∧
    gives 0x008 (BitVec.ofNat 32 (s.status.busy.toNat + 2 * s.status.done.toNat + 4 * s.status.err.toNat
      + 8 * s.status.ovr.toNat + 16 * s.status.cmpMatch.toNat + 256 * s.status.errcode.toNat)) ∧
    gives 0x00C 0 ∧ gives 0x010 (BitVec.ofNat 32 s.rsaNw) ∧ (∀ i < s.rsaNw, gives (0x2000 + 4 * i) 0) ∧
    (s.status.busy = false →
      (∀ i : Fin 5, gives (0x020 + 4 * i.val) s.h[i.val]) ∧
      gives 0x038 (BitVec.ofNat 32 s.len.toNat) ∧ gives 0x03C (BitVec.ofNat 32 (s.len.toNat / 2 ^ 32)) ∧
      (∀ i : Fin 16, gives (0x040 + 4 * i.val) s.msg[i.val]) ∧
      (∀ i < s.rsaNw, gives (0x1000 + 4 * i) (s.base.read i) ∧ gives (0x3000 + 4 * i) (s.mod.read i) ∧
        gives (0x4000 + 4 * i) (s.res.read i))) ∧
    (s.status.busy = true →
      (∀ i : Fin 5, drawsAt (0x020 + 4 * i.val)) ∧ drawsAt 0x038 ∧ drawsAt 0x03C ∧
      (∀ i : Fin 16, drawsAt (0x040 + 4 * i.val)) ∧
      (∀ i < s.rsaNw, drawsAt (0x1000 + 4 * i) ∧ drawsAt (0x3000 + 4 * i) ∧ drawsAt (0x4000 + 4 * i)))

/-- 20_memory.md R53, R54; 60_exceptions.md R150: exactly the accesses that are misaligned, not 32 bits wide or to an
unmapped offset get the bus error, which changes no state; every other gets a normal response. The ranges are those of
R51 and R52. -/
def Obligations.BusErrorsAreExactlyTheRefusedAccesses : Prop :=
  ∀ (s : State) (a : Access), s.rsaNw ≤ 1024 →
    let refused := a.width ≠ .bytes 4 ∨ a.addr % 4 ≠ 0 ∨
      (0x014 ≤ a.addr ∧ a.addr ≤ 0x01C) ∨ a.addr = 0x034 ∨ (0x080 ≤ a.addr ∧ a.addr ≤ 0xFFC) ∨
      (0x1000 ≤ a.addr ∧ a.addr < 0x5000 ∧ s.rsaNw ≤ a.addr % 0x1000 / 4) ∨ 0x5000 ≤ a.addr
    (refused → s.handleAccess a = { s with responses := .fault (.busError a.addr) :: s.responses }) ∧
    (¬ refused → ∃ r, (s.handleAccess a).responses = r :: s.responses ∧
      (a.kind = .read → ∃ v, r = .data v) ∧ (∀ v, a.kind = .write v → r = .written))

/-- No register aliases another: two registers of an instance at one offset are one register (10_state.md R20;
20_memory.md R51, R52). -/
def Obligations.NoRegisterAliasesAnother : Prop :=
  ∀ (nw : Nat) (r r' : Reg), nw ≤ 1024 → r.mapped nw = true → r'.mapped nw = true → r.offset = r'.offset → r = r'

/-- While BUSY = 0 a write of an input word stores it and changes nothing else: the other half of LEN, the other words
of an operand and every other register stay (20_memory.md R56; 10_state.md R27 to R32). -/
def Obligations.IdleWritesStoreTheWord : Prop :=
  ∀ (s : State) (v : Word), s.rsaNw ≤ 1024 → s.status.busy = false →
    let puts := fun (a : Nat) (t : State) =>
      s.handleAccess ⟨a, .bytes 4, .write v⟩ = { t with responses := .written :: s.responses }
    let stored := fun (m m' : Memory) (i : Nat) =>
      (m.fits s.rsaNw → m'.fits s.rsaNw ∧ m'.read i = v) ∧ ∀ k, k ≠ i → m'.read k = m.read k
    (∀ i : Fin 5, puts (0x020 + 4 * i.val) { s with h := s.h.set i.val v }) ∧
    puts 0x038 { s with len := BitVec.ofNat 64 (s.len.toNat / 2 ^ 32 * 2 ^ 32 + v.toNat) } ∧
    puts 0x03C { s with len := BitVec.ofNat 64 (v.toNat * 2 ^ 32 + s.len.toNat % 2 ^ 32) } ∧
    (∀ i : Fin 16, puts (0x040 + 4 * i.val) { s with msg := s.msg.set i.val v }) ∧
    (∀ i < s.rsaNw,
      (∃ m, puts (0x1000 + 4 * i) { s with base := m } ∧ stored s.base m i) ∧
      (∃ m, puts (0x2000 + 4 * i) { s with exp := m } ∧ stored s.exp m i) ∧
      (∃ m, puts (0x3000 + 4 * i) { s with mod := m } ∧ stored s.mod m i))

/-- While BUSY = 1 a write of CMD or of an input word is dropped: OVR is set, the response is normal, and nothing else
changes, the flags, DONE and IRQ among it (20_memory.md R56; 60_exceptions.md R149). -/
def Obligations.BusyWritesAreDroppedWithOvr : Prop :=
  ∀ (s : State) (v : Word) (r : Reg), s.rsaNw ≤ 1024 → s.status.busy = true → r.mapped s.rsaNw = true →
    r ≠ .id → r ≠ .param → r ≠ .ctrl → r ≠ .status → (∀ i, r ≠ .res i) →
    s.handleAccess ⟨r.offset, .bytes 4, .write v⟩ =
      { s with status := { s.status with ovr := true }, responses := .written :: s.responses } ∧
    (s.handleAccess ⟨r.offset, .bytes 4, .write v⟩).irq = s.irq

/-- A write of ID, PARAM or RES is ignored at any time, with no error and no OVR (20_memory.md R56; 10_state.md R21, R26,
R33). -/
def Obligations.ReadOnlyWritesAreIgnored : Prop :=
  ∀ (s : State) (v : Word), s.rsaNw ≤ 1024 →
    ∀ a : Nat, (a = 0x000 ∨ a = 0x010 ∨ ∃ i < s.rsaNw, a = 0x4000 + 4 * i) →
      s.handleAccess ⟨a, .bytes 4, .write v⟩ = { s with responses := .written :: s.responses }

/-- 10_state.md R24: a write of STATUS clears DONE, ERR and OVR by the ones in bits 1, 2 and 3 and ignores every other
bit, at any time; 0x0000000E clears the three together. -/
def Obligations.StatusWriteClearsByOnes : Prop :=
  ∀ (s : State) (v : Word),
    s.handleAccess ⟨0x008, .bytes 4, .write v⟩ =
      { s with
        status := { s.status with
          done := if v.getLsbD 1 then false else s.status.done
          err := if v.getLsbD 2 then false else s.status.err
          ovr := if v.getLsbD 3 then false else s.status.ovr },
        responses := .written :: s.responses } ∧
    s.handleAccess ⟨0x008, .bytes 4, .write 0x0000000E⟩ =
      { s with
        status := { s.status with done := false, err := false, ovr := false },
        responses := .written :: s.responses }

/-- 30_encoding.md R82: a write of CMD while BUSY = 0 latches the word undecoded, sets BUSY and clears DONE and MATCH;
ERR, OVR and ERRCODE stay and IRQ goes to 0. -/
def Obligations.CmdWriteIsAccepted : Prop :=
  ∀ (s : State) (cw : Word), s.status.busy = false →
    s.handleAccess ⟨0x00C, .bytes 4, .write cw⟩ =
      { s with
        pend := some cw, status := { s.status with busy := true, done := false, cmpMatch := false },
        responses := .written :: s.responses } ∧
    (s.handleAccess ⟨0x00C, .bytes 4, .write cw⟩).irq = false

/-- 30_encoding.md R83: a write of CMD while BUSY = 1 sets OVR and changes nothing else, and the pending command goes
on: its completion after the dropped write is its completion without it, but for OVR. -/
def Obligations.CmdWriteWhileBusyIsLost : Prop :=
  ∀ (s : State) (cw pending : Word) (i : Instr), s.status.busy = true → s.pend = some pending →
    decode pending = .ok i →
    s.handleAccess ⟨0x00C, .bytes 4, .write cw⟩ =
      { s with status := { s.status with ovr := true }, responses := .written :: s.responses } ∧
    ∃ t, exec i s = .next t ∧ exec i (s.handleAccess ⟨0x00C, .bytes 4, .write cw⟩) = .next
      { t with status := { t.status with ovr := true }, responses := .written :: s.responses }

/-- 10_state.md R22: a write of CTRL with bit 1 clear sets IE from bit 0 and changes nothing else. With bit 1 set it is a
soft reset (70_reset_and_hazards.md R167): every register takes its reset value, IE is 0 whatever bit 0 was, whatever was
pending, and the write gets a normal response. What the pins still bring and the draws made are the model's and stay
(log 10). -/
def Obligations.CtrlWriteSetsIeOrResets : Prop :=
  ∀ (s : State) (v : Word),
    (v.getLsbD 1 = false → s.handleAccess ⟨0x004, .bytes 4, .write v⟩ =
      { s with ie := v.getLsbD 0, responses := .written :: s.responses }) ∧
    (v.getLsbD 1 = true → s.handleAccess ⟨0x004, .bytes 4, .write v⟩ =
      { rsaNw := s.rsaNw, ie := false,
        status := { busy := false, done := false, err := false, ovr := false, cmpMatch := false, errcode := 0 },
        pend := none, h := #v[0x67452301, 0xEFCDAB89, 0x98BADCFE, 0x10325476, 0xC3D2E1F0], len := 0,
        msg := #v[0, 0, 0, 0, 0, 0, 0, 0, 0, 0, 0, 0, 0, 0, 0, 0], base := [], exp := [], mod := [], res := [],
        events := s.events, responses := .written :: s.responses, draws := s.draws })

/-- Writing the same value twice to any mapped register but CMD leaves the registers as writing it once does, and
reading one twice returns the same word while BUSY = 0 (20_memory.md R57). The invariant is asked for the operand
memories' canonical form (log 8). -/
def Obligations.RepeatedAccessesAreIdempotent : Prop :=
  ∀ (s : State) (r : Reg) (v : Word), s.Inv → r.mapped s.rsaNw = true →
    (r ≠ .cmd → ∀ t, t = s.handleAccess ⟨r.offset, .bytes 4, .write v⟩ →
      { t.handleAccess ⟨r.offset, .bytes 4, .write v⟩ with responses := [] } = { t with responses := [] }) ∧
    (s.status.busy = false → ∀ t, t = s.handleAccess ⟨r.offset, .bytes 4, .read⟩ → ∃ w,
      t.responses = .data w :: s.responses ∧
      (t.handleAccess ⟨r.offset, .bytes 4, .read⟩).responses = .data w :: .data w :: s.responses)

/-! ### The source's operations as host sequences (spec/41_modexp.md R135) -/

/-- `encryptBlock(v, e, n)`, and with other operands `decryptBlock` and the certificate signature, run by the host from an
idle state. With ERR clear, MOD odd and v below it the sequence completes: RES is the sequencer's result, read back word
by word, code 0, and H, LEN and MSG as before. With ERR already set, or with a modulus that MODEXP rejects, it stops at
its one wait, before RES is read; a rejected modulus leaves RES and its code in ERRCODE (41_modexp.md R125, R132, R135;
30_encoding.md R88). The number of polls of the wait is the model's form of it (log 17). -/
def Obligations.EncryptSequenceLeavesTheResult : Prop :=
  ∀ (s : State) (polls v e n : Nat), s.Inv → s.idle →
    v < 2 ^ (32 * s.rsaNw) → e < 2 ^ (32 * s.rsaNw) → n < 2 ^ (32 * s.rsaNw) →
    decryptBlock s.rsaNw polls v e n = encryptBlock s.rsaNw polls v e n ∧
    certificateSignature s.rsaNw polls v e n = encryptBlock s.rsaNw polls v e n ∧
    (s.status.err = false → n % 2 = 1 → v < n →
      ∃ t, (encryptBlock s.rsaNw polls v e n).run s = .next (.completed t) ∧
        s.runEvents (encryptBlock s.rsaNw polls v e n).events = .next t ∧
        t.res.val = modExpSeq Config.mm s.rsaNw v e n ∧ t.status.errcode = 0 ∧ t.idle ∧ t.events = s.events ∧
        t.h = s.h ∧ t.len = s.len ∧ t.msg = s.msg ∧
        t.responses.take s.rsaNw = ((List.range s.rsaNw).map fun i => .data (t.res.read i)).reverse) ∧
    (s.status.err = true ∨ n % 2 = 0 ∨ n ≤ v →
      ∃ t, (encryptBlock s.rsaNw polls v e n).run s = .next (.stopped t) ∧
        s.runEvents (modexpStage s.rsaNw polls v e n) = .next t ∧
        t.status.err = true ∧ t.idle ∧ t.events = s.events ∧ t.h = s.h ∧ t.len = s.len ∧ t.msg = s.msg ∧
        (n % 2 = 0 ∨ n ≤ v → t.res = s.res ∧
          t.status.errcode = if n = 0 then 3 else if n % 2 = 0 then 4 else 5))

/-- `sign(m)` run by the host from an idle state. With ERR clear, MOD odd and the digest of m below it (as it is below
every modulus of more than 160 bits) the sequence completes, with the sequencer's result on the digest in RES, read back
word by word. With ERR already set it stops at its first wait, SHA_INIT's; with a modulus that MODEXP rejects it stops at
MODEXP's, with the digest in BASE, RES as before and the code in ERRCODE (41_modexp.md R132, R133, R135). The number of
polls of each wait is the model's form of it (log 17). -/
def Obligations.SignSequenceSignsTheDigest : Prop :=
  ∀ (s : State) (polls : Nat → Nat) (p q e n : Nat) (m : List Byte), s.Inv → s.idle →
    8 * m.length ≤ 2 ^ 64 - 1 → e < 2 ^ (32 * s.rsaNw) → n < 2 ^ (32 * s.rsaNw) →
    (s.status.err = false → n % 2 = 1 → digestValue (sha1 m) < n →
      ∃ t, (sign polls s.rsaNw p q m e n).run s = .next (.completed t) ∧
        s.runEvents (sign polls s.rsaNw p q m e n).events = .next t ∧
        t.res.val = modExpSeq Config.mm s.rsaNw (digestValue (sha1 m)) e n ∧ t.status.errcode = 0 ∧ t.idle ∧
        t.events = s.events ∧
        t.responses.take s.rsaNw = ((List.range s.rsaNw).map fun i => .data (t.res.read i)).reverse) ∧
    (s.status.err = true →
      ∃ t, (sign polls s.rsaNw p q m e n).run s = .next (.stopped t) ∧
        s.runEvents (cmdWait .shaInit (polls 0)) = .next t ∧
        t.status.err = true ∧ t.idle ∧ t.events = s.events ∧ t.msg = s.msg ∧ t.base = s.base ∧ t.exp = s.exp ∧
        t.mod = s.mod ∧ t.res = s.res) ∧
    (s.status.err = false → n % 2 = 0 ∨ n ≤ digestValue (sha1 m) →
      ∃ t, (sign polls s.rsaNw p q m e n).run s = .next (.stopped t) ∧
        s.runEvents (sign polls s.rsaNw p q m e n).stages.flatten = .next t ∧
        t.status.err = true ∧ t.idle ∧ t.events = s.events ∧ t.base.val = digestValue (sha1 m) ∧ t.res = s.res ∧
        t.status.errcode = if n = 0 then 3 else if n % 2 = 0 then 4 else 5)

/-- `verify(signature, m)` run by the host from an idle state. With ERR clear, MOD odd and the signature below it the
sequence completes, and software reports true exactly when the sequencer's result on the signature is the digest of m.
With ERR already set, or with a modulus that MODEXP rejects (a signature not below it among them), it stops at MODEXP's
wait, before the hash, and software reports false (41_modexp.md R132, R134, R135). The number of polls of each wait is the
model's form of it (log 17). -/
def Obligations.VerifySequenceSetsMatch : Prop :=
  ∀ (s : State) (polls : Nat → Nat) (p q signature e n : Nat) (m : List Byte), s.Inv → s.idle →
    8 * m.length ≤ 2 ^ 64 - 1 → signature < 2 ^ (32 * s.rsaNw) → e < 2 ^ (32 * s.rsaNw) → n < 2 ^ (32 * s.rsaNw) →
    (s.status.err = false → n % 2 = 1 → signature < n →
      ∃ t, (verify polls s.rsaNw p q signature e n m).run s = .next (.completed t) ∧
        s.runEvents (verify polls s.rsaNw p q signature e n m).events = .next t ∧
        (verifyReport (.completed t) = true ↔
          modExpSeq Config.mm s.rsaNw signature e n = digestValue (sha1 m)) ∧
        t.responses.head? = some (.data t.status.word) ∧ t.status.errcode = 0 ∧ t.idle ∧ t.events = s.events) ∧
    (s.status.err = true ∨ n % 2 = 0 ∨ n ≤ signature →
      ∃ t, (verify polls s.rsaNw p q signature e n m).run s = .next (.stopped t) ∧
        s.runEvents (modexpStage s.rsaNw p signature e n) = .next t ∧ verifyReport (.stopped t) = false ∧
        t.status.err = true ∧ t.idle ∧ t.events = s.events ∧ t.h = s.h ∧ t.len = s.len ∧ t.msg = s.msg ∧
        (n % 2 = 0 ∨ n ≤ signature → t.res = s.res ∧
          t.status.errcode = if n = 0 then 3 else if n % 2 = 0 then 4 else 5))

/-! ### Reset and interrupt (spec/70_reset_and_hazards.md, spec/60_exceptions.md) -/

/-- 70_reset_and_hazards.md R166: after the hardware reset, after the soft reset and in the reset state of every
instance, every register holds the value of the table, whatever was pending. The fields `events`, `responses` and
`draws` are the model's own: that they are [], [] and 0 in the reset state and stay at a block reset is its choice
(log 10), and so is that `State.reset` takes its width from `Config.rsaNw` (log 5). -/
def Obligations.BothResetsGiveTheResetValues : Prop :=
  let resetState := fun (nw : Nat) (es : List Event) (rs : List Response) (d : Nat) => ({
    rsaNw := nw, ie := false,
    status := { busy := false, done := false, err := false, ovr := false, cmpMatch := false, errcode := 0 },
    pend := none, h := #v[0x67452301, 0xEFCDAB89, 0x98BADCFE, 0x10325476, 0xC3D2E1F0], len := 0,
    msg := #v[0, 0, 0, 0, 0, 0, 0, 0, 0, 0, 0, 0, 0, 0, 0, 0], base := [], exp := [], mod := [], res := [],
    events := es, responses := rs, draws := d } : State)
  (∀ nw, State.resetOf nw = resetState nw [] [] 0) ∧ State.reset = resetState Config.rsaNw [] [] 0 ∧
  ∀ (s : State) (es : List Event),
    (s.events = .hwReset :: es → step s = .next (resetState s.rsaNw es s.responses s.draws)) ∧
    (∀ v : Word, v.getLsbD 1 = true → s.events = .access ⟨0x004, .bytes 4, .write v⟩ :: es →
      step s = .next (resetState s.rsaNw es (.written :: s.responses) s.draws)) ∧
    (∀ i, Memory.read [] i = 0) ∧ (resetState s.rsaNw es s.responses s.draws).irq = false ∧
    Reg.value (resetState s.rsaNw es s.responses s.draws) .ctrl = 0 ∧
    Reg.value (resetState s.rsaNw es s.responses s.draws) .id = 0x53314D01 ∧
    Reg.value (resetState s.rsaNw es s.responses s.draws) .param = BitVec.ofNat 32 (s.rsaNw % 2 ^ 16)

/-- IRQ is the level IE and DONE: low from every acceptance to the completion, equal to IE after every completion with or
without error, low whenever IE = 0, and low after DONE is cleared (10_state.md R35; 60_exceptions.md R151, R152). -/
def Obligations.IrqFollowsIeAndDone : Prop :=
  ∀ s : State, s.irq = (s.ie && s.status.done) ∧ (s.ie = false → s.irq = false) ∧
    (∀ cw, s.status.busy = false → (s.handleAccess ⟨0x00C, .bytes 4, .write cw⟩).irq = false) ∧
    (∀ i t, exec i s = .next t → t.irq = s.ie) ∧
    (∀ cw e t, decode cw = .error e → runWord cw s = .next t → t.irq = s.ie) ∧
    (s.handleAccess ⟨0x008, .bytes 4, .write 0x00000002⟩).irq = false

/-! ### Rules of the whole machine -/

/-- The reset state of every instance has the invariant, and so has `State.reset`. -/
def Obligations.ResetHasTheInvariant : Prop :=
  (∀ nw, 5 ≤ nw → nw ≤ 1024 → (State.resetOf nw).Inv) ∧ State.reset.Inv

/-- Every step keeps the invariant: BUSY exactly while a command is pending, DONE and MATCH only while idle, MATCH only
with code 0, codes 6 to 15 never, the operand memories canonical and within RSA_NW words (10_state.md R23, R36;
20_memory.md R52; 60_exceptions.md R147). -/
def Obligations.EveryStepKeepsTheInvariant : Prop :=
  ∀ s t : State, s.Inv → step s = .next t → t.Inv

/-- RES changes only by a reset or by the completion of a MODEXP with no error (10_state.md R33). -/
def Obligations.OnlyModexpOrResetChangesRes : Prop :=
  ∀ s t : State, s.rsaNw ≤ 1024 → step s = .next t → t.res ≠ s.res →
    (∃ es, s.events = .hwReset :: es ∧ t.res = []) ∨
    (∃ v es, v.getLsbD 1 = true ∧ s.events = .access ⟨0x004, .bytes 4, .write v⟩ :: es ∧ t.res = []) ∨
    (s.engineNext ∧ s.pend = some 0x00000008 ∧ t.status.errcode = 0 ∧
      exec .modexp { s with events := s.events.tail } = .next t)

/-- EXP never comes back over the bus: two states that differ only in EXP, both with no command pending, answer every
host access alike and still differ only in EXP (10_state.md R31; 60_exceptions.md R157). Reads while BUSY are left out:
what they return is free (log 3). -/
def Obligations.ExpIsNeverReadBack : Prop :=
  ∀ (s t : State) (a : Access), s.sameButExp t → s.status.busy = false →
    (s.handleAccess a).sameButExp (t.handleAccess a) ∧
    (s.handleAccess a).responses = (t.handleAccess a).responses ∧ (s.handleAccess a).irq = (t.handleAccess a).irq

/-- A host write and a completion may come in either order: with the write first it is dropped and OVR is set, with the
completion first it is performed, and the command's own outputs are the same (60_exceptions.md R153; 95 P6). -/
def Obligations.WriteAndCompletionInEitherOrder : Prop :=
  ∀ (s : State) (cw : Word) (i : Instr) (k : Fin 5) (v : Word),
    s.rsaNw ≤ 1024 → s.status.busy = true → s.pend = some cw → decode cw = .ok i →
    ∃ u, exec i { s with events := [] } = .next u ∧
      Host.Core.run Sys2Proof.core 2 { s with events := [wr (.h k) v, .engine] } = .next
        { u with status := { u.status with ovr := true }, responses := .written :: s.responses } ∧
      Host.Core.run Sys2Proof.core 2 { s with events := [.engine, wr (.h k) v] } = .next
        { u with h := u.h.set k.val v, responses := .written :: s.responses }
end

