-- ==== Sys2Proof/Laws/Flags.lean ====
section
/-! SUPPORT. What every flag of STATUS is after every flag operation, and the small facts about IRQ and the codes. -/

namespace Sys2Proof.Machine

variable (f : Status)

@[simp] theorem Status.accept_busy : f.accept.busy = true := rfl
@[simp] theorem Status.accept_done : f.accept.done = false := rfl
@[simp] theorem Status.accept_err : f.accept.err = f.err := rfl
@[simp] theorem Status.accept_ovr : f.accept.ovr = f.ovr := rfl
@[simp] theorem Status.accept_cmpMatch : f.accept.cmpMatch = false := rfl
@[simp] theorem Status.accept_errcode : f.accept.errcode = f.errcode := rfl

@[simp] theorem Status.succeed_busy : f.succeed.busy = false := rfl
@[simp] theorem Status.succeed_done : f.succeed.done = true := rfl
@[simp] theorem Status.succeed_err : f.succeed.err = f.err := rfl
@[simp] theorem Status.succeed_ovr : f.succeed.ovr = f.ovr := rfl
@[simp] theorem Status.succeed_cmpMatch : f.succeed.cmpMatch = f.cmpMatch := rfl
@[simp] theorem Status.succeed_errcode : f.succeed.errcode = 0 := rfl

@[simp] theorem Status.fail_busy (e : CmdError) : (f.fail e).busy = false := rfl
@[simp] theorem Status.fail_done (e : CmdError) : (f.fail e).done = true := rfl
@[simp] theorem Status.fail_err (e : CmdError) : (f.fail e).err = true := rfl
@[simp] theorem Status.fail_ovr (e : CmdError) : (f.fail e).ovr = f.ovr := rfl
@[simp] theorem Status.fail_cmpMatch (e : CmdError) : (f.fail e).cmpMatch = f.cmpMatch := rfl
@[simp] theorem Status.fail_errcode (e : CmdError) : (f.fail e).errcode = e.code := rfl

@[simp] theorem Status.overrun_busy : f.overrun.busy = f.busy := rfl
@[simp] theorem Status.overrun_done : f.overrun.done = f.done := rfl
@[simp] theorem Status.overrun_err : f.overrun.err = f.err := rfl
@[simp] theorem Status.overrun_ovr : f.overrun.ovr = true := rfl
@[simp] theorem Status.overrun_cmpMatch : f.overrun.cmpMatch = f.cmpMatch := rfl
@[simp] theorem Status.overrun_errcode : f.overrun.errcode = f.errcode := rfl

@[simp] theorem Status.setMatch_busy (b : Bool) : (f.setMatch b).busy = f.busy := rfl
@[simp] theorem Status.setMatch_done (b : Bool) : (f.setMatch b).done = f.done := rfl
@[simp] theorem Status.setMatch_err (b : Bool) : (f.setMatch b).err = f.err := rfl
@[simp] theorem Status.setMatch_ovr (b : Bool) : (f.setMatch b).ovr = f.ovr := rfl
@[simp] theorem Status.setMatch_cmpMatch (b : Bool) : (f.setMatch b).cmpMatch = b := rfl
@[simp] theorem Status.setMatch_errcode (b : Bool) : (f.setMatch b).errcode = f.errcode := rfl

@[simp] theorem Status.clear_busy (v : Word) : (f.clear v).busy = f.busy := rfl
@[simp] theorem Status.clear_done (v : Word) : (f.clear v).done = (f.done && !v.getLsbD 1) := rfl
@[simp] theorem Status.clear_err (v : Word) : (f.clear v).err = (f.err && !v.getLsbD 2) := rfl
@[simp] theorem Status.clear_ovr (v : Word) : (f.clear v).ovr = (f.ovr && !v.getLsbD 3) := rfl
@[simp] theorem Status.clear_cmpMatch (v : Word) : (f.clear v).cmpMatch = f.cmpMatch := rfl
@[simp] theorem Status.clear_errcode (v : Word) : (f.clear v).errcode = f.errcode := rfl

/-- No error has code 0, and every code is at most 5. -/
theorem CmdError.code_bounds (e : CmdError) : e.code ≠ 0 ∧ e.code.toNat ≤ 5 := by
  cases e <;> decide

/-- IRQ is low while a command is pending whose acceptance cleared DONE. -/
theorem State.irq_of_not_done {s : State} (h : s.status.done = false) : s.irq = false := by
  simp [State.irq, h]

/-- IRQ follows IE when DONE is set. -/
theorem State.irq_of_done {s : State} (h : s.status.done = true) : s.irq = s.ie := by
  simp [State.irq, h]

end Sys2Proof.Machine
end

