-- ==== Sys2Proof/Laws/State.lean ====
section
/-! SUPPORT. What every field of State is after every update: one lemma for each, true by `rfl`, so that no later
proof unfolds a record update. -/

namespace Sys2Proof.Machine

variable (s : State)

@[simp] theorem State.setIe_rsaNw (v : Bool) : (s.setIe v).rsaNw = s.rsaNw := rfl
@[simp] theorem State.setIe_ie (v : Bool) : (s.setIe v).ie = v := rfl
@[simp] theorem State.setIe_status (v : Bool) : (s.setIe v).status = s.status := rfl
@[simp] theorem State.setIe_pend (v : Bool) : (s.setIe v).pend = s.pend := rfl
@[simp] theorem State.setIe_h (v : Bool) : (s.setIe v).h = s.h := rfl
@[simp] theorem State.setIe_len (v : Bool) : (s.setIe v).len = s.len := rfl
@[simp] theorem State.setIe_msg (v : Bool) : (s.setIe v).msg = s.msg := rfl
@[simp] theorem State.setIe_base (v : Bool) : (s.setIe v).base = s.base := rfl
@[simp] theorem State.setIe_exp (v : Bool) : (s.setIe v).exp = s.exp := rfl
@[simp] theorem State.setIe_mod (v : Bool) : (s.setIe v).mod = s.mod := rfl
@[simp] theorem State.setIe_res (v : Bool) : (s.setIe v).res = s.res := rfl
@[simp] theorem State.setIe_events (v : Bool) : (s.setIe v).events = s.events := rfl
@[simp] theorem State.setIe_responses (v : Bool) : (s.setIe v).responses = s.responses := rfl
@[simp] theorem State.setIe_draws (v : Bool) : (s.setIe v).draws = s.draws := rfl

@[simp] theorem State.setStatus_rsaNw (v : Status) : (s.setStatus v).rsaNw = s.rsaNw := rfl
@[simp] theorem State.setStatus_ie (v : Status) : (s.setStatus v).ie = s.ie := rfl
@[simp] theorem State.setStatus_status (v : Status) : (s.setStatus v).status = v := rfl
@[simp] theorem State.setStatus_pend (v : Status) : (s.setStatus v).pend = s.pend := rfl
@[simp] theorem State.setStatus_h (v : Status) : (s.setStatus v).h = s.h := rfl
@[simp] theorem State.setStatus_len (v : Status) : (s.setStatus v).len = s.len := rfl
@[simp] theorem State.setStatus_msg (v : Status) : (s.setStatus v).msg = s.msg := rfl
@[simp] theorem State.setStatus_base (v : Status) : (s.setStatus v).base = s.base := rfl
@[simp] theorem State.setStatus_exp (v : Status) : (s.setStatus v).exp = s.exp := rfl
@[simp] theorem State.setStatus_mod (v : Status) : (s.setStatus v).mod = s.mod := rfl
@[simp] theorem State.setStatus_res (v : Status) : (s.setStatus v).res = s.res := rfl
@[simp] theorem State.setStatus_events (v : Status) : (s.setStatus v).events = s.events := rfl
@[simp] theorem State.setStatus_responses (v : Status) : (s.setStatus v).responses = s.responses := rfl
@[simp] theorem State.setStatus_draws (v : Status) : (s.setStatus v).draws = s.draws := rfl

@[simp] theorem State.setPend_rsaNw (v : Option Word) : (s.setPend v).rsaNw = s.rsaNw := rfl
@[simp] theorem State.setPend_ie (v : Option Word) : (s.setPend v).ie = s.ie := rfl
@[simp] theorem State.setPend_status (v : Option Word) : (s.setPend v).status = s.status := rfl
@[simp] theorem State.setPend_pend (v : Option Word) : (s.setPend v).pend = v := rfl
@[simp] theorem State.setPend_h (v : Option Word) : (s.setPend v).h = s.h := rfl
@[simp] theorem State.setPend_len (v : Option Word) : (s.setPend v).len = s.len := rfl
@[simp] theorem State.setPend_msg (v : Option Word) : (s.setPend v).msg = s.msg := rfl
@[simp] theorem State.setPend_base (v : Option Word) : (s.setPend v).base = s.base := rfl
@[simp] theorem State.setPend_exp (v : Option Word) : (s.setPend v).exp = s.exp := rfl
@[simp] theorem State.setPend_mod (v : Option Word) : (s.setPend v).mod = s.mod := rfl
@[simp] theorem State.setPend_res (v : Option Word) : (s.setPend v).res = s.res := rfl
@[simp] theorem State.setPend_events (v : Option Word) : (s.setPend v).events = s.events := rfl
@[simp] theorem State.setPend_responses (v : Option Word) : (s.setPend v).responses = s.responses := rfl
@[simp] theorem State.setPend_draws (v : Option Word) : (s.setPend v).draws = s.draws := rfl

@[simp] theorem State.setH_rsaNw (v : Vector Word 5) : (s.setH v).rsaNw = s.rsaNw := rfl
@[simp] theorem State.setH_ie (v : Vector Word 5) : (s.setH v).ie = s.ie := rfl
@[simp] theorem State.setH_status (v : Vector Word 5) : (s.setH v).status = s.status := rfl
@[simp] theorem State.setH_pend (v : Vector Word 5) : (s.setH v).pend = s.pend := rfl
@[simp] theorem State.setH_h (v : Vector Word 5) : (s.setH v).h = v := rfl
@[simp] theorem State.setH_len (v : Vector Word 5) : (s.setH v).len = s.len := rfl
@[simp] theorem State.setH_msg (v : Vector Word 5) : (s.setH v).msg = s.msg := rfl
@[simp] theorem State.setH_base (v : Vector Word 5) : (s.setH v).base = s.base := rfl
@[simp] theorem State.setH_exp (v : Vector Word 5) : (s.setH v).exp = s.exp := rfl
@[simp] theorem State.setH_mod (v : Vector Word 5) : (s.setH v).mod = s.mod := rfl
@[simp] theorem State.setH_res (v : Vector Word 5) : (s.setH v).res = s.res := rfl
@[simp] theorem State.setH_events (v : Vector Word 5) : (s.setH v).events = s.events := rfl
@[simp] theorem State.setH_responses (v : Vector Word 5) : (s.setH v).responses = s.responses := rfl
@[simp] theorem State.setH_draws (v : Vector Word 5) : (s.setH v).draws = s.draws := rfl

@[simp] theorem State.setLen_rsaNw (v : BitVec 64) : (s.setLen v).rsaNw = s.rsaNw := rfl
@[simp] theorem State.setLen_ie (v : BitVec 64) : (s.setLen v).ie = s.ie := rfl
@[simp] theorem State.setLen_status (v : BitVec 64) : (s.setLen v).status = s.status := rfl
@[simp] theorem State.setLen_pend (v : BitVec 64) : (s.setLen v).pend = s.pend := rfl
@[simp] theorem State.setLen_h (v : BitVec 64) : (s.setLen v).h = s.h := rfl
@[simp] theorem State.setLen_len (v : BitVec 64) : (s.setLen v).len = v := rfl
@[simp] theorem State.setLen_msg (v : BitVec 64) : (s.setLen v).msg = s.msg := rfl
@[simp] theorem State.setLen_base (v : BitVec 64) : (s.setLen v).base = s.base := rfl
@[simp] theorem State.setLen_exp (v : BitVec 64) : (s.setLen v).exp = s.exp := rfl
@[simp] theorem State.setLen_mod (v : BitVec 64) : (s.setLen v).mod = s.mod := rfl
@[simp] theorem State.setLen_res (v : BitVec 64) : (s.setLen v).res = s.res := rfl
@[simp] theorem State.setLen_events (v : BitVec 64) : (s.setLen v).events = s.events := rfl
@[simp] theorem State.setLen_responses (v : BitVec 64) : (s.setLen v).responses = s.responses := rfl
@[simp] theorem State.setLen_draws (v : BitVec 64) : (s.setLen v).draws = s.draws := rfl

@[simp] theorem State.setMsg_rsaNw (v : Vector Word 16) : (s.setMsg v).rsaNw = s.rsaNw := rfl
@[simp] theorem State.setMsg_ie (v : Vector Word 16) : (s.setMsg v).ie = s.ie := rfl
@[simp] theorem State.setMsg_status (v : Vector Word 16) : (s.setMsg v).status = s.status := rfl
@[simp] theorem State.setMsg_pend (v : Vector Word 16) : (s.setMsg v).pend = s.pend := rfl
@[simp] theorem State.setMsg_h (v : Vector Word 16) : (s.setMsg v).h = s.h := rfl
@[simp] theorem State.setMsg_len (v : Vector Word 16) : (s.setMsg v).len = s.len := rfl
@[simp] theorem State.setMsg_msg (v : Vector Word 16) : (s.setMsg v).msg = v := rfl
@[simp] theorem State.setMsg_base (v : Vector Word 16) : (s.setMsg v).base = s.base := rfl
@[simp] theorem State.setMsg_exp (v : Vector Word 16) : (s.setMsg v).exp = s.exp := rfl
@[simp] theorem State.setMsg_mod (v : Vector Word 16) : (s.setMsg v).mod = s.mod := rfl
@[simp] theorem State.setMsg_res (v : Vector Word 16) : (s.setMsg v).res = s.res := rfl
@[simp] theorem State.setMsg_events (v : Vector Word 16) : (s.setMsg v).events = s.events := rfl
@[simp] theorem State.setMsg_responses (v : Vector Word 16) : (s.setMsg v).responses = s.responses := rfl
@[simp] theorem State.setMsg_draws (v : Vector Word 16) : (s.setMsg v).draws = s.draws := rfl

@[simp] theorem State.setBase_rsaNw (v : Memory) : (s.setBase v).rsaNw = s.rsaNw := rfl
@[simp] theorem State.setBase_ie (v : Memory) : (s.setBase v).ie = s.ie := rfl
@[simp] theorem State.setBase_status (v : Memory) : (s.setBase v).status = s.status := rfl
@[simp] theorem State.setBase_pend (v : Memory) : (s.setBase v).pend = s.pend := rfl
@[simp] theorem State.setBase_h (v : Memory) : (s.setBase v).h = s.h := rfl
@[simp] theorem State.setBase_len (v : Memory) : (s.setBase v).len = s.len := rfl
@[simp] theorem State.setBase_msg (v : Memory) : (s.setBase v).msg = s.msg := rfl
@[simp] theorem State.setBase_base (v : Memory) : (s.setBase v).base = v := rfl
@[simp] theorem State.setBase_exp (v : Memory) : (s.setBase v).exp = s.exp := rfl
@[simp] theorem State.setBase_mod (v : Memory) : (s.setBase v).mod = s.mod := rfl
@[simp] theorem State.setBase_res (v : Memory) : (s.setBase v).res = s.res := rfl
@[simp] theorem State.setBase_events (v : Memory) : (s.setBase v).events = s.events := rfl
@[simp] theorem State.setBase_responses (v : Memory) : (s.setBase v).responses = s.responses := rfl
@[simp] theorem State.setBase_draws (v : Memory) : (s.setBase v).draws = s.draws := rfl

@[simp] theorem State.setExp_rsaNw (v : Memory) : (s.setExp v).rsaNw = s.rsaNw := rfl
@[simp] theorem State.setExp_ie (v : Memory) : (s.setExp v).ie = s.ie := rfl
@[simp] theorem State.setExp_status (v : Memory) : (s.setExp v).status = s.status := rfl
@[simp] theorem State.setExp_pend (v : Memory) : (s.setExp v).pend = s.pend := rfl
@[simp] theorem State.setExp_h (v : Memory) : (s.setExp v).h = s.h := rfl
@[simp] theorem State.setExp_len (v : Memory) : (s.setExp v).len = s.len := rfl
@[simp] theorem State.setExp_msg (v : Memory) : (s.setExp v).msg = s.msg := rfl
@[simp] theorem State.setExp_base (v : Memory) : (s.setExp v).base = s.base := rfl
@[simp] theorem State.setExp_exp (v : Memory) : (s.setExp v).exp = v := rfl
@[simp] theorem State.setExp_mod (v : Memory) : (s.setExp v).mod = s.mod := rfl
@[simp] theorem State.setExp_res (v : Memory) : (s.setExp v).res = s.res := rfl
@[simp] theorem State.setExp_events (v : Memory) : (s.setExp v).events = s.events := rfl
@[simp] theorem State.setExp_responses (v : Memory) : (s.setExp v).responses = s.responses := rfl
@[simp] theorem State.setExp_draws (v : Memory) : (s.setExp v).draws = s.draws := rfl

@[simp] theorem State.setMod_rsaNw (v : Memory) : (s.setMod v).rsaNw = s.rsaNw := rfl
@[simp] theorem State.setMod_ie (v : Memory) : (s.setMod v).ie = s.ie := rfl
@[simp] theorem State.setMod_status (v : Memory) : (s.setMod v).status = s.status := rfl
@[simp] theorem State.setMod_pend (v : Memory) : (s.setMod v).pend = s.pend := rfl
@[simp] theorem State.setMod_h (v : Memory) : (s.setMod v).h = s.h := rfl
@[simp] theorem State.setMod_len (v : Memory) : (s.setMod v).len = s.len := rfl
@[simp] theorem State.setMod_msg (v : Memory) : (s.setMod v).msg = s.msg := rfl
@[simp] theorem State.setMod_base (v : Memory) : (s.setMod v).base = s.base := rfl
@[simp] theorem State.setMod_exp (v : Memory) : (s.setMod v).exp = s.exp := rfl
@[simp] theorem State.setMod_mod (v : Memory) : (s.setMod v).mod = v := rfl
@[simp] theorem State.setMod_res (v : Memory) : (s.setMod v).res = s.res := rfl
@[simp] theorem State.setMod_events (v : Memory) : (s.setMod v).events = s.events := rfl
@[simp] theorem State.setMod_responses (v : Memory) : (s.setMod v).responses = s.responses := rfl
@[simp] theorem State.setMod_draws (v : Memory) : (s.setMod v).draws = s.draws := rfl

@[simp] theorem State.setRes_rsaNw (v : Memory) : (s.setRes v).rsaNw = s.rsaNw := rfl
@[simp] theorem State.setRes_ie (v : Memory) : (s.setRes v).ie = s.ie := rfl
@[simp] theorem State.setRes_status (v : Memory) : (s.setRes v).status = s.status := rfl
@[simp] theorem State.setRes_pend (v : Memory) : (s.setRes v).pend = s.pend := rfl
@[simp] theorem State.setRes_h (v : Memory) : (s.setRes v).h = s.h := rfl
@[simp] theorem State.setRes_len (v : Memory) : (s.setRes v).len = s.len := rfl
@[simp] theorem State.setRes_msg (v : Memory) : (s.setRes v).msg = s.msg := rfl
@[simp] theorem State.setRes_base (v : Memory) : (s.setRes v).base = s.base := rfl
@[simp] theorem State.setRes_exp (v : Memory) : (s.setRes v).exp = s.exp := rfl
@[simp] theorem State.setRes_mod (v : Memory) : (s.setRes v).mod = s.mod := rfl
@[simp] theorem State.setRes_res (v : Memory) : (s.setRes v).res = v := rfl
@[simp] theorem State.setRes_events (v : Memory) : (s.setRes v).events = s.events := rfl
@[simp] theorem State.setRes_responses (v : Memory) : (s.setRes v).responses = s.responses := rfl
@[simp] theorem State.setRes_draws (v : Memory) : (s.setRes v).draws = s.draws := rfl

@[simp] theorem State.setEvents_rsaNw (v : List Event) : (s.setEvents v).rsaNw = s.rsaNw := rfl
@[simp] theorem State.setEvents_ie (v : List Event) : (s.setEvents v).ie = s.ie := rfl
@[simp] theorem State.setEvents_status (v : List Event) : (s.setEvents v).status = s.status := rfl
@[simp] theorem State.setEvents_pend (v : List Event) : (s.setEvents v).pend = s.pend := rfl
@[simp] theorem State.setEvents_h (v : List Event) : (s.setEvents v).h = s.h := rfl
@[simp] theorem State.setEvents_len (v : List Event) : (s.setEvents v).len = s.len := rfl
@[simp] theorem State.setEvents_msg (v : List Event) : (s.setEvents v).msg = s.msg := rfl
@[simp] theorem State.setEvents_base (v : List Event) : (s.setEvents v).base = s.base := rfl
@[simp] theorem State.setEvents_exp (v : List Event) : (s.setEvents v).exp = s.exp := rfl
@[simp] theorem State.setEvents_mod (v : List Event) : (s.setEvents v).mod = s.mod := rfl
@[simp] theorem State.setEvents_res (v : List Event) : (s.setEvents v).res = s.res := rfl
@[simp] theorem State.setEvents_events (v : List Event) : (s.setEvents v).events = v := rfl
@[simp] theorem State.setEvents_responses (v : List Event) : (s.setEvents v).responses = s.responses := rfl
@[simp] theorem State.setEvents_draws (v : List Event) : (s.setEvents v).draws = s.draws := rfl

@[simp] theorem State.setResponses_rsaNw (v : List Response) : (s.setResponses v).rsaNw = s.rsaNw := rfl
@[simp] theorem State.setResponses_ie (v : List Response) : (s.setResponses v).ie = s.ie := rfl
@[simp] theorem State.setResponses_status (v : List Response) : (s.setResponses v).status = s.status := rfl
@[simp] theorem State.setResponses_pend (v : List Response) : (s.setResponses v).pend = s.pend := rfl
@[simp] theorem State.setResponses_h (v : List Response) : (s.setResponses v).h = s.h := rfl
@[simp] theorem State.setResponses_len (v : List Response) : (s.setResponses v).len = s.len := rfl
@[simp] theorem State.setResponses_msg (v : List Response) : (s.setResponses v).msg = s.msg := rfl
@[simp] theorem State.setResponses_base (v : List Response) : (s.setResponses v).base = s.base := rfl
@[simp] theorem State.setResponses_exp (v : List Response) : (s.setResponses v).exp = s.exp := rfl
@[simp] theorem State.setResponses_mod (v : List Response) : (s.setResponses v).mod = s.mod := rfl
@[simp] theorem State.setResponses_res (v : List Response) : (s.setResponses v).res = s.res := rfl
@[simp] theorem State.setResponses_events (v : List Response) : (s.setResponses v).events = s.events := rfl
@[simp] theorem State.setResponses_responses (v : List Response) : (s.setResponses v).responses = v := rfl
@[simp] theorem State.setResponses_draws (v : List Response) : (s.setResponses v).draws = s.draws := rfl

@[simp] theorem State.setDraws_rsaNw (v : Nat) : (s.setDraws v).rsaNw = s.rsaNw := rfl
@[simp] theorem State.setDraws_ie (v : Nat) : (s.setDraws v).ie = s.ie := rfl
@[simp] theorem State.setDraws_status (v : Nat) : (s.setDraws v).status = s.status := rfl
@[simp] theorem State.setDraws_pend (v : Nat) : (s.setDraws v).pend = s.pend := rfl
@[simp] theorem State.setDraws_h (v : Nat) : (s.setDraws v).h = s.h := rfl
@[simp] theorem State.setDraws_len (v : Nat) : (s.setDraws v).len = s.len := rfl
@[simp] theorem State.setDraws_msg (v : Nat) : (s.setDraws v).msg = s.msg := rfl
@[simp] theorem State.setDraws_base (v : Nat) : (s.setDraws v).base = s.base := rfl
@[simp] theorem State.setDraws_exp (v : Nat) : (s.setDraws v).exp = s.exp := rfl
@[simp] theorem State.setDraws_mod (v : Nat) : (s.setDraws v).mod = s.mod := rfl
@[simp] theorem State.setDraws_res (v : Nat) : (s.setDraws v).res = s.res := rfl
@[simp] theorem State.setDraws_events (v : Nat) : (s.setDraws v).events = s.events := rfl
@[simp] theorem State.setDraws_responses (v : Nat) : (s.setDraws v).responses = s.responses := rfl
@[simp] theorem State.setDraws_draws (v : Nat) : (s.setDraws v).draws = v := rfl

end Sys2Proof.Machine
end

