-- ==== Sys2Proof/Laws/Ops.lean ====
section
/-! SUPPORT. What every field of State is after each shared operation, and what a completion can leave. -/

namespace Sys2Proof.Machine

variable (s : State)

@[simp] theorem State.accept_rsaNw (cw : Word) : (s.accept cw).rsaNw = s.rsaNw := rfl
@[simp] theorem State.accept_ie (cw : Word) : (s.accept cw).ie = s.ie := rfl
@[simp] theorem State.accept_status (cw : Word) : (s.accept cw).status = s.status.accept := rfl
@[simp] theorem State.accept_pend (cw : Word) : (s.accept cw).pend = some cw := rfl
@[simp] theorem State.accept_h (cw : Word) : (s.accept cw).h = s.h := rfl
@[simp] theorem State.accept_len (cw : Word) : (s.accept cw).len = s.len := rfl
@[simp] theorem State.accept_msg (cw : Word) : (s.accept cw).msg = s.msg := rfl
@[simp] theorem State.accept_base (cw : Word) : (s.accept cw).base = s.base := rfl
@[simp] theorem State.accept_exp (cw : Word) : (s.accept cw).exp = s.exp := rfl
@[simp] theorem State.accept_mod (cw : Word) : (s.accept cw).mod = s.mod := rfl
@[simp] theorem State.accept_res (cw : Word) : (s.accept cw).res = s.res := rfl
@[simp] theorem State.accept_events (cw : Word) : (s.accept cw).events = s.events := rfl
@[simp] theorem State.accept_responses (cw : Word) : (s.accept cw).responses = s.responses := rfl
@[simp] theorem State.accept_draws (cw : Word) : (s.accept cw).draws = s.draws := rfl

@[simp] theorem State.overrun_rsaNw : s.overrun.rsaNw = s.rsaNw := rfl
@[simp] theorem State.overrun_ie : s.overrun.ie = s.ie := rfl
@[simp] theorem State.overrun_status : s.overrun.status = s.status.overrun := rfl
@[simp] theorem State.overrun_pend : s.overrun.pend = s.pend := rfl
@[simp] theorem State.overrun_h : s.overrun.h = s.h := rfl
@[simp] theorem State.overrun_len : s.overrun.len = s.len := rfl
@[simp] theorem State.overrun_msg : s.overrun.msg = s.msg := rfl
@[simp] theorem State.overrun_base : s.overrun.base = s.base := rfl
@[simp] theorem State.overrun_exp : s.overrun.exp = s.exp := rfl
@[simp] theorem State.overrun_mod : s.overrun.mod = s.mod := rfl
@[simp] theorem State.overrun_res : s.overrun.res = s.res := rfl
@[simp] theorem State.overrun_events : s.overrun.events = s.events := rfl
@[simp] theorem State.overrun_responses : s.overrun.responses = s.responses := rfl
@[simp] theorem State.overrun_draws : s.overrun.draws = s.draws := rfl

@[simp] theorem State.raiseCmdError_rsaNw (e : CmdError) : (s.raiseCmdError e).rsaNw = s.rsaNw := rfl
@[simp] theorem State.raiseCmdError_ie (e : CmdError) : (s.raiseCmdError e).ie = s.ie := rfl
@[simp] theorem State.raiseCmdError_status (e : CmdError) : (s.raiseCmdError e).status = s.status.fail e := rfl
@[simp] theorem State.raiseCmdError_pend (e : CmdError) : (s.raiseCmdError e).pend = none := rfl
@[simp] theorem State.raiseCmdError_h (e : CmdError) : (s.raiseCmdError e).h = s.h := rfl
@[simp] theorem State.raiseCmdError_len (e : CmdError) : (s.raiseCmdError e).len = s.len := rfl
@[simp] theorem State.raiseCmdError_msg (e : CmdError) : (s.raiseCmdError e).msg = s.msg := rfl
@[simp] theorem State.raiseCmdError_base (e : CmdError) : (s.raiseCmdError e).base = s.base := rfl
@[simp] theorem State.raiseCmdError_exp (e : CmdError) : (s.raiseCmdError e).exp = s.exp := rfl
@[simp] theorem State.raiseCmdError_mod (e : CmdError) : (s.raiseCmdError e).mod = s.mod := rfl
@[simp] theorem State.raiseCmdError_res (e : CmdError) : (s.raiseCmdError e).res = s.res := rfl
@[simp] theorem State.raiseCmdError_events (e : CmdError) : (s.raiseCmdError e).events = s.events := rfl
@[simp] theorem State.raiseCmdError_responses (e : CmdError) : (s.raiseCmdError e).responses = s.responses := rfl
@[simp] theorem State.raiseCmdError_draws (e : CmdError) : (s.raiseCmdError e).draws = s.draws := rfl

@[simp] theorem State.succeed_rsaNw : s.succeed.rsaNw = s.rsaNw := rfl
@[simp] theorem State.succeed_ie : s.succeed.ie = s.ie := rfl
@[simp] theorem State.succeed_status : s.succeed.status = s.status.succeed := rfl
@[simp] theorem State.succeed_pend : s.succeed.pend = none := rfl
@[simp] theorem State.succeed_h : s.succeed.h = s.h := rfl
@[simp] theorem State.succeed_len : s.succeed.len = s.len := rfl
@[simp] theorem State.succeed_msg : s.succeed.msg = s.msg := rfl
@[simp] theorem State.succeed_base : s.succeed.base = s.base := rfl
@[simp] theorem State.succeed_exp : s.succeed.exp = s.exp := rfl
@[simp] theorem State.succeed_mod : s.succeed.mod = s.mod := rfl
@[simp] theorem State.succeed_res : s.succeed.res = s.res := rfl
@[simp] theorem State.succeed_events : s.succeed.events = s.events := rfl
@[simp] theorem State.succeed_responses : s.succeed.responses = s.responses := rfl
@[simp] theorem State.succeed_draws : s.succeed.draws = s.draws := rfl

@[simp] theorem State.resetBlock_rsaNw : s.resetBlock.rsaNw = s.rsaNw := rfl
@[simp] theorem State.resetBlock_ie : s.resetBlock.ie = false := rfl
@[simp] theorem State.resetBlock_status : s.resetBlock.status = Status.reset := rfl
@[simp] theorem State.resetBlock_pend : s.resetBlock.pend = none := rfl
@[simp] theorem State.resetBlock_h : s.resetBlock.h = iv := rfl
@[simp] theorem State.resetBlock_len : s.resetBlock.len = 0 := rfl
@[simp] theorem State.resetBlock_msg : s.resetBlock.msg = #v[0, 0, 0, 0, 0, 0, 0, 0, 0, 0, 0, 0, 0, 0, 0, 0] := rfl
@[simp] theorem State.resetBlock_base : s.resetBlock.base = [] := rfl
@[simp] theorem State.resetBlock_exp : s.resetBlock.exp = [] := rfl
@[simp] theorem State.resetBlock_mod : s.resetBlock.mod = [] := rfl
@[simp] theorem State.resetBlock_res : s.resetBlock.res = [] := rfl
@[simp] theorem State.resetBlock_events : s.resetBlock.events = s.events := rfl
@[simp] theorem State.resetBlock_responses : s.resetBlock.responses = s.responses := rfl
@[simp] theorem State.resetBlock_draws : s.resetBlock.draws = s.draws := rfl

@[simp] theorem State.respond_rsaNw (r : Response) : (s.respond r).rsaNw = s.rsaNw := rfl
@[simp] theorem State.respond_ie (r : Response) : (s.respond r).ie = s.ie := rfl
@[simp] theorem State.respond_status (r : Response) : (s.respond r).status = s.status := rfl
@[simp] theorem State.respond_pend (r : Response) : (s.respond r).pend = s.pend := rfl
@[simp] theorem State.respond_h (r : Response) : (s.respond r).h = s.h := rfl
@[simp] theorem State.respond_len (r : Response) : (s.respond r).len = s.len := rfl
@[simp] theorem State.respond_msg (r : Response) : (s.respond r).msg = s.msg := rfl
@[simp] theorem State.respond_base (r : Response) : (s.respond r).base = s.base := rfl
@[simp] theorem State.respond_exp (r : Response) : (s.respond r).exp = s.exp := rfl
@[simp] theorem State.respond_mod (r : Response) : (s.respond r).mod = s.mod := rfl
@[simp] theorem State.respond_res (r : Response) : (s.respond r).res = s.res := rfl
@[simp] theorem State.respond_events (r : Response) : (s.respond r).events = s.events := rfl
@[simp] theorem State.respond_responses (r : Response) : (s.respond r).responses = r :: s.responses := rfl
@[simp] theorem State.respond_draws (r : Response) : (s.respond r).draws = s.draws := rfl

@[simp] theorem State.drawn_rsaNw : s.drawn.rsaNw = s.rsaNw := rfl
@[simp] theorem State.drawn_ie : s.drawn.ie = s.ie := rfl
@[simp] theorem State.drawn_status : s.drawn.status = s.status := rfl
@[simp] theorem State.drawn_pend : s.drawn.pend = s.pend := rfl
@[simp] theorem State.drawn_h : s.drawn.h = s.h := rfl
@[simp] theorem State.drawn_len : s.drawn.len = s.len := rfl
@[simp] theorem State.drawn_msg : s.drawn.msg = s.msg := rfl
@[simp] theorem State.drawn_base : s.drawn.base = s.base := rfl
@[simp] theorem State.drawn_exp : s.drawn.exp = s.exp := rfl
@[simp] theorem State.drawn_mod : s.drawn.mod = s.mod := rfl
@[simp] theorem State.drawn_res : s.drawn.res = s.res := rfl
@[simp] theorem State.drawn_events : s.drawn.events = s.events := rfl
@[simp] theorem State.drawn_responses : s.drawn.responses = s.responses := rfl
@[simp] theorem State.drawn_draws : s.drawn.draws = s.draws + 1 := rfl

@[simp] theorem State.complete_ok (t : State) : s.complete (.ok t) = t.succeed := rfl
@[simp] theorem State.complete_error (e : CmdError) : s.complete (.error e) = s.raiseCmdError e := rfl
@[simp] theorem State.fetch_eq : s.fetch = s.pend := rfl

/-- Everything a completion can be: a command error that touches STATUS and PEND alone, or the writes of a success
with the flags of one. -/
theorem State.complete_cases (r : Except CmdError State) :
    (∃ e, r = .error e ∧ s.complete r = s.raiseCmdError e) ∨ (∃ t, r = .ok t ∧ s.complete r = t.succeed) := by
  cases r with
  | error e => exact .inl ⟨e, rfl, rfl⟩
  | ok t => exact .inr ⟨t, rfl, rfl⟩

/-- Every completion leaves the engine idle with DONE set. -/
theorem State.complete_idle (r : Except CmdError State) :
    (s.complete r).status.busy = false ∧ (s.complete r).status.done = true ∧ (s.complete r).pend = none := by
  cases r <;> simp

end Sys2Proof.Machine
end

