-- ==== Sys2Proof/Laws/Bus.lean ====
section
/-! SUPPORT. The register map is exact in both directions, and everything a host access can do. -/

namespace Sys2Proof.Machine

/-- A window word of the instance is found in its window. -/
theorem windowReg_offset {nw i : Nat} (hi : i < nw) (mk : Nat → Reg) : windowReg nw (4 * i) mk = some (mk i) := by
  have hd : 4 * i / 4 = i := by omega
  rw [windowReg, hd, if_pos hi]

/-- Every register of the instance is found at its own offset. -/
theorem regAtAligned_offset {nw : Nat} (hnw : nw ≤ 1024) {r : Reg} (hr : r.mapped nw = true) :
    regAtAligned nw r.offset = some r := by
  cases r with
  | h i => fin_cases i <;> rfl
  | msg i => fin_cases i <;> rfl
  | base i =>
    have hi : i < nw := of_decide_eq_true hr
    have hq : (0x1000 + 4 * i) / 0x1000 = 1 := by omega
    have hm : (0x1000 + 4 * i) % 0x1000 = 4 * i := by omega
    simp only [Reg.offset, regAtAligned, hq, hm, windowReg_offset hi]
  | exp i =>
    have hi : i < nw := of_decide_eq_true hr
    have hq : (0x2000 + 4 * i) / 0x1000 = 2 := by omega
    have hm : (0x2000 + 4 * i) % 0x1000 = 4 * i := by omega
    simp only [Reg.offset, regAtAligned, hq, hm, windowReg_offset hi]
  | mod i =>
    have hi : i < nw := of_decide_eq_true hr
    have hq : (0x3000 + 4 * i) / 0x1000 = 3 := by omega
    have hm : (0x3000 + 4 * i) % 0x1000 = 4 * i := by omega
    simp only [Reg.offset, regAtAligned, hq, hm, windowReg_offset hi]
  | res i =>
    have hi : i < nw := of_decide_eq_true hr
    have hq : (0x4000 + 4 * i) / 0x1000 = 4 := by omega
    have hm : (0x4000 + 4 * i) % 0x1000 = 4 * i := by omega
    simp only [Reg.offset, regAtAligned, hq, hm, windowReg_offset hi]
  | _ => rfl

/-- Every offset of the first page below 0x080, tried: a register found there has that offset. -/
theorem pageReg_low : ∀ a < 0x080, a % 4 = 0 → ∀ r ∈ pageReg a, r.offset = a := by
  decide

/-- The first page has nothing from 0x080 on. -/
theorem pageReg_high {a : Nat} (ha : 0x080 ≤ a) : pageReg a = none := by
  unfold pageReg
  repeat' split
  all_goals first | rfl | omega

/-- A register of the first page is in every instance. -/
theorem pageReg_mapped {a : Nat} {r : Reg} (h : pageReg a = some r) (nw : Nat) : r.mapped nw = true := by
  unfold pageReg at h
  repeat' split at h
  all_goals first | (cases h; rfl) | cases h

/-- A register found in the first page is at that offset, and every instance has it. -/
theorem pageReg_some {a : Nat} (ha : a % 4 = 0) {r : Reg} (h : pageReg a = some r) (nw : Nat) :
    r.offset = a ∧ r.mapped nw = true := by
  by_cases hlow : a < 0x080
  · exact ⟨pageReg_low a hlow ha r h, pageReg_mapped h nw⟩
  · rw [pageReg_high (Nat.le_of_not_lt hlow)] at h
    cases h

/-- A register found in a window is the window's word there, and the instance has it. -/
theorem windowReg_some {nw off : Nat} {mk : Nat → Reg} {r : Reg} (h : windowReg nw off mk = some r) :
    r = mk (off / 4) ∧ off / 4 < nw := by
  unfold windowReg at h
  split at h
  · exact ⟨(Option.some.inj h).symm, ‹_›⟩
  · cases h

/-- A register found at an aligned offset has that offset, and the instance has it. -/
theorem regAtAligned_some {nw a : Nat} (ha : a % 4 = 0) {r : Reg} (h : regAtAligned nw a = some r) :
    r.offset = a ∧ r.mapped nw = true := by
  unfold regAtAligned at h
  split at h
  · exact pageReg_some ha h nw
  all_goals first
    | (obtain ⟨rfl, hi⟩ := windowReg_some h
       exact ⟨by simp only [Reg.offset]; omega, decide_eq_true hi⟩)
    | cases h

/-- An access reaches a register exactly when it is 32 bits wide and at the register's offset. -/
theorem Access.target_eq_some {nw : Nat} (hnw : nw ≤ 1024) {a : Access} {r : Reg} :
    a.target nw = some r ↔ a.width = .bytes 4 ∧ a.addr = r.offset ∧ r.mapped nw = true := by
  unfold Access.target
  constructor
  · intro h
    split at h
    · obtain ⟨hw, ha⟩ := ‹_ ∧ _›
      obtain ⟨ho, hm⟩ := regAtAligned_some ha h
      exact ⟨hw, ho.symm, hm⟩
    · cases h
  · rintro ⟨hw, ha, hm⟩
    have halign : r.offset % 4 = 0 := by cases r <;> simp only [Reg.offset] <;> omega
    rw [if_pos ⟨hw, ha ▸ halign⟩, ha, regAtAligned_offset hnw hm]

/-- The register page is in every instance, whatever its width. -/
theorem Access.target_page {nw : Nat} {r : Reg} {k : AccessKind} (hr : ∀ n, r.mapped n = true) :
    Access.target nw ⟨r.offset, .bytes 4, k⟩ = some r := by
  have halign : r.offset % 4 = 0 := by cases r <;> simp only [Reg.offset] <;> omega
  have h0 : regAtAligned 0 r.offset = some r := regAtAligned_offset (Nat.zero_le _) (hr 0)
  have hpage : r.offset / 0x1000 = 0 := by
    cases r with
    | base i | exp i | mod i | res i => exact absurd (hr 0) (by simp [Reg.mapped])
    | h i | msg i => simp only [Reg.offset]; omega
    | _ => rfl
  have hnw : regAtAligned nw r.offset = some r := by simpa [regAtAligned, hpage] using h0
  rw [Access.target, if_pos ⟨rfl, halign⟩, hnw]

/-- A read of a register of the first page, in an instance of any width. -/
theorem State.handleAccess_page_read (s : State) {r : Reg} (hr : ∀ n, r.mapped n = true) :
    s.handleAccess ⟨r.offset, .bytes 4, .read⟩ = (s.readReg r).2.respond (.data (s.readReg r).1) := by
  simp [State.handleAccess, Access.target_page hr]

/-- A write of a register of the first page, in an instance of any width. -/
theorem State.handleAccess_page_write (s : State) {r : Reg} (hr : ∀ n, r.mapped n = true) (v : Word) :
    s.handleAccess ⟨r.offset, .bytes 4, .write v⟩ = (s.writeReg r v).respond .written := by
  simp [State.handleAccess, Access.target_page hr]

/-- A read of a register the instance has. -/
theorem State.handleAccess_read (s : State) (hnw : s.rsaNw ≤ 1024) {r : Reg} (hr : r.mapped s.rsaNw = true) :
    s.handleAccess ⟨r.offset, .bytes 4, .read⟩ = (s.readReg r).2.respond (.data (s.readReg r).1) := by
  have h : Access.target s.rsaNw ⟨r.offset, .bytes 4, .read⟩ = some r :=
    (Access.target_eq_some hnw).mpr ⟨rfl, rfl, hr⟩
  simp [State.handleAccess, h]

/-- A write of a register the instance has. -/
theorem State.handleAccess_write (s : State) (hnw : s.rsaNw ≤ 1024) {r : Reg} (hr : r.mapped s.rsaNw = true)
    (v : Word) : s.handleAccess ⟨r.offset, .bytes 4, .write v⟩ = (s.writeReg r v).respond .written := by
  have h : Access.target s.rsaNw ⟨r.offset, .bytes 4, .write v⟩ = some r :=
    (Access.target_eq_some hnw).mpr ⟨rfl, rfl, hr⟩
  simp [State.handleAccess, h]

/-- Everything a host access can do: a bus error with no effect, a mapped read, or a mapped write. -/
theorem State.handleAccess_cases (s : State) (a : Access) :
    (a.target s.rsaNw = none ∧ s.handleAccess a = s.respond (.fault (.busError a.addr))) ∨
    (∃ r, a.target s.rsaNw = some r ∧ a.kind = .read ∧
      s.handleAccess a = (s.readReg r).2.respond (.data (s.readReg r).1)) ∨
    (∃ r v, a.target s.rsaNw = some r ∧ a.kind = .write v ∧
      s.handleAccess a = (s.writeReg r v).respond .written) := by
  unfold State.handleAccess
  split
  · exact .inl ⟨‹_›, rfl⟩
  · rename_i r hr
    split
    · exact .inr (.inl ⟨r, hr, ‹_›, rfl⟩)
    · exact .inr (.inr ⟨r, _, hr, ‹_›, rfl⟩)

/-- A mapped read is a drawn value of an engine-owned register while BUSY, or the register's word with no effect. -/
theorem State.readReg_cases (s : State) (r : Reg) :
    (s.status.busy = true ∧ r.engineOwned = true ∧ s.readReg r = (Config.draw s.draws, s.drawn)) ∨
    ((s.status.busy = false ∨ r.engineOwned = false) ∧ s.readReg r = (r.value s, s)) := by
  unfold State.readReg
  by_cases h : (s.status.busy && r.engineOwned) = true
  · rw [if_pos h]
    exact .inl ⟨by simp_all, by simp_all, rfl⟩
  · rw [if_neg h]
    refine .inr ⟨?_, rfl⟩
    cases hb : s.status.busy <;> simp_all

/-- Everything a mapped write can do: nothing, a new IE, a reset, cleared flags, an acceptance, a dropped write, or
one input word stored. -/
theorem State.writeReg_cases (s : State) (r : Reg) (v : Word) :
    s.writeReg r v = s ∨ s.writeReg r v = s.setIe (v.getLsbD 0) ∨
    (r = .ctrl ∧ v.getLsbD 1 = true ∧ s.writeReg r v = s.resetBlock) ∨
    s.writeReg r v = s.setStatus (s.status.clear v) ∨
    (r = .cmd ∧ s.status.busy = false ∧ s.writeReg r v = s.accept v) ∨
    (s.status.busy = true ∧ s.writeReg r v = s.overrun) ∨
    (s.status.busy = false ∧ s.writeReg r v = s.storeInput r v) := by
  cases r with
  | ctrl =>
    unfold State.writeReg State.ctrlWrite
    cases hv : v.getLsbD 1
    · exact .inr (.inl rfl)
    · exact .inr (.inr (.inl ⟨rfl, rfl, rfl⟩))
  | _ => cases hb : s.status.busy <;> simp [State.writeReg, hb]

end Sys2Proof.Machine
end

