-- ==== Sys2Proof/Laws/Memory.lean ====
section
/-! SUPPORT. The laws of the operand memories: read after write, and that every operation keeps the canonical form and
stays inside the memory's words. -/

namespace Sys2Proof.Machine

@[simp] theorem Memory.read_nil (i : Nat) : Memory.read [] i = 0 := rfl
@[simp] theorem Memory.val_nil : Memory.val [] = 0 := rfl
@[simp] theorem Memory.val_cons (i : Nat) (v : Word) (m : Memory) :
    Memory.val ((i, v) :: m) = v.toNat * 2 ^ (32 * i) + Memory.val m := rfl

theorem Memory.read_cons (j : Nat) (w : Word) (m : Memory) (i : Nat) :
    Memory.read ((j, w) :: m) i = if i = j then w else Memory.read m i := rfl

theorem Memory.wfFrom_cons {lo i : Nat} {v : Word} {m : Memory} :
    Memory.wfFrom lo ((i, v) :: m) = true ↔ lo ≤ i ∧ v ≠ 0 ∧ Memory.wfFrom (i + 1) m = true := by
  simp [Memory.wfFrom, and_assoc]

theorem Memory.below_cons {nw i : Nat} {v : Word} {m : Memory} :
    Memory.below nw ((i, v) :: m) = true ↔ i < nw ∧ Memory.below nw m = true := by
  simp [Memory.below]

/-- The form from a higher bound is the form from a lower one. -/
theorem Memory.wfFrom_mono {lo lo' : Nat} {m : Memory} (hle : lo' ≤ lo) (h : Memory.wfFrom lo m = true) :
    Memory.wfFrom lo' m = true := by
  cases m with
  | nil => rfl
  | cons e m =>
    obtain ⟨hlo, hv, hm⟩ := Memory.wfFrom_cons.mp h
    exact Memory.wfFrom_cons.mpr ⟨hle.trans hlo, hv, hm⟩

/-- Below the bound nothing is listed. -/
theorem Memory.read_of_lt {lo : Nat} {m : Memory} (h : Memory.wfFrom lo m = true) {i : Nat} (hi : i < lo) :
    Memory.read m i = 0 := by
  induction m generalizing lo with
  | nil => rfl
  | cons e m ih =>
    obtain ⟨j, w⟩ := e
    obtain ⟨hlo, -, hm⟩ := Memory.wfFrom_cons.mp h
    rw [Memory.read_cons, if_neg (by omega)]
    exact ih hm (by omega)

/-! ### Putting an entry in front -/

theorem Memory.wfFrom_put {lo i : Nat} (hi : lo ≤ i) (v : Word) {m : Memory}
    (h : Memory.wfFrom (i + 1) m = true) : Memory.wfFrom lo (Memory.put i v m) = true := by
  unfold Memory.put
  split
  · exact Memory.wfFrom_mono (by omega) h
  · exact Memory.wfFrom_cons.mpr ⟨hi, ‹_›, h⟩

theorem Memory.below_put {nw i : Nat} (hi : i < nw) (v : Word) {m : Memory} (h : Memory.below nw m = true) :
    Memory.below nw (Memory.put i v m) = true := by
  unfold Memory.put
  split
  · exact h
  · exact Memory.below_cons.mpr ⟨hi, h⟩

theorem Memory.read_put_other {i k : Nat} (hk : k ≠ i) (v : Word) (m : Memory) :
    Memory.read (Memory.put i v m) k = Memory.read m k := by
  unfold Memory.put
  split
  · rfl
  · rw [Memory.read_cons, if_neg hk]

theorem Memory.read_put_same {i : Nat} (v : Word) {m : Memory} (h : Memory.wfFrom (i + 1) m = true) :
    Memory.read (Memory.put i v m) i = v := by
  unfold Memory.put
  split
  · rw [Memory.read_of_lt h (Nat.lt_succ_self i), ‹v = 0›]
  · rw [Memory.read_cons, if_pos rfl]

/-! ### Writing a word -/

/-- A write keeps the canonical form. -/
theorem Memory.wfFrom_write {lo : Nat} {m : Memory} (h : Memory.wfFrom lo m = true) {i : Nat} (hi : lo ≤ i)
    (v : Word) : Memory.wfFrom lo (Memory.write m i v) = true := by
  induction m generalizing lo with
  | nil => exact Memory.wfFrom_put hi v rfl
  | cons e m ih =>
    obtain ⟨j, w⟩ := e
    obtain ⟨hlo, hw, hm⟩ := Memory.wfFrom_cons.mp h
    rw [Memory.write]
    split_ifs with hij he
    · exact Memory.wfFrom_put hi v (Memory.wfFrom_cons.mpr ⟨hij, hw, hm⟩)
    · exact Memory.wfFrom_put hi v (he ▸ hm)
    · exact Memory.wfFrom_cons.mpr ⟨hlo, hw, ih hm (by omega)⟩

/-- Reading the word just written. -/
theorem Memory.read_write_same {lo : Nat} {m : Memory} (h : Memory.wfFrom lo m = true) (i : Nat) (v : Word) :
    Memory.read (Memory.write m i v) i = v := by
  induction m generalizing lo with
  | nil => exact Memory.read_put_same v rfl
  | cons e m ih =>
    obtain ⟨j, w⟩ := e
    obtain ⟨-, hw, hm⟩ := Memory.wfFrom_cons.mp h
    rw [Memory.write]
    split_ifs with hij he
    · exact Memory.read_put_same v (Memory.wfFrom_cons.mpr ⟨hij, hw, hm⟩)
    · exact Memory.read_put_same v (he ▸ hm)
    · rw [Memory.read_cons, if_neg he, ih hm]

/-- A write leaves every other word alone. -/
theorem Memory.read_write_other (m : Memory) {i k : Nat} (hk : k ≠ i) (v : Word) :
    Memory.read (Memory.write m i v) k = Memory.read m k := by
  induction m with
  | nil => exact Memory.read_put_other hk v []
  | cons e m ih =>
    obtain ⟨j, w⟩ := e
    rw [Memory.write]
    split_ifs with hij he
    · exact Memory.read_put_other hk v _
    · rw [Memory.read_put_other hk, Memory.read_cons, if_neg (he ▸ hk)]
    · rw [Memory.read_cons, Memory.read_cons, ih]

/-- A write inside the memory's words stays inside them. -/
theorem Memory.below_write {nw : Nat} {m : Memory} (h : Memory.below nw m = true) {i : Nat} (hi : i < nw)
    (v : Word) : Memory.below nw (Memory.write m i v) = true := by
  induction m with
  | nil => exact Memory.below_put hi v rfl
  | cons e m ih =>
    obtain ⟨j, w⟩ := e
    obtain ⟨hj, hm⟩ := Memory.below_cons.mp h
    rw [Memory.write]
    split_ifs
    · exact Memory.below_put hi v h
    · exact Memory.below_put hi v hm
    · exact Memory.below_cons.mpr ⟨hj, ih hm⟩

/-- A write of one of the memory's words keeps the memory fitting. -/
theorem Memory.fits_write {nw : Nat} {m : Memory} (h : m.fits nw) {i : Nat} (hi : i < nw) (v : Word) :
    (m.write i v).fits nw :=
  ⟨Memory.wfFrom_write h.1 (Nat.zero_le i) v, Memory.below_write h.2 hi v⟩

/-! ### Loading words -/

/-- The reset memory fits any width. -/
theorem Memory.fits_nil (nw : Nat) : Memory.fits nw [] := ⟨rfl, rfl⟩

/-- Words loaded from index `k` on are in canonical form from `k` on. -/
theorem Memory.wfFrom_ofWordsFrom (k : Nat) (ws : List Word) :
    Memory.wfFrom k (Memory.ofWordsFrom k ws) = true := by
  induction ws generalizing k with
  | nil => rfl
  | cons w ws ih => exact Memory.wfFrom_put le_rfl w (ih (k + 1))

/-- Every index of words loaded from `k` on lies below `k` plus their number. -/
theorem Memory.below_ofWordsFrom {nw : Nat} (k : Nat) (ws : List Word) (h : k + ws.length ≤ nw) :
    Memory.below nw (Memory.ofWordsFrom k ws) = true := by
  induction ws generalizing k with
  | nil => rfl
  | cons w ws ih =>
    rw [List.length_cons] at h
    exact Memory.below_put (by omega) w (ih (k + 1) (by omega))

/-- A loaded memory fits when it has at most as many words as the memory. -/
theorem Memory.fits_ofWords {nw : Nat} (ws : List Word) (h : ws.length ≤ nw) : (Memory.ofWords ws).fits nw :=
  ⟨Memory.wfFrom_ofWordsFrom 0 ws, Memory.below_ofWordsFrom 0 ws (by omega)⟩

/-- What words loaded from `k` on hold at index `k + i`. -/
theorem Memory.read_ofWordsFrom (k : Nat) (ws : List Word) (i : Nat) :
    Memory.read (Memory.ofWordsFrom k ws) (k + i) = ws.getD i 0 := by
  induction ws generalizing k i with
  | nil => simp [Memory.ofWordsFrom]
  | cons w ws ih =>
    rw [Memory.ofWordsFrom]
    cases i with
    | zero => simpa using Memory.read_put_same w (Memory.wfFrom_ofWordsFrom (k + 1) ws)
    | succ i =>
      rw [Memory.read_put_other (by omega), show k + (i + 1) = k + 1 + i by omega, ih, List.getD_cons_succ]

/-- What a loaded memory holds. -/
theorem Memory.read_ofWords (ws : List Word) (i : Nat) : Memory.read (Memory.ofWords ws) i = ws.getD i 0 := by
  simpa [Memory.ofWords] using Memory.read_ofWordsFrom 0 ws i

@[simp] theorem wordsOf_length (nw n : Nat) : (wordsOf nw n).length = nw := by simp [wordsOf]

/-- Word `i` of an integer. -/
theorem wordsOf_getD (nw n i : Nat) :
    (wordsOf nw n).getD i 0 = if i < nw then BitVec.ofNat 32 (n / 2 ^ (32 * i)) else 0 := by
  by_cases hi : i < nw <;> simp [wordsOf, List.getD, hi]

/-- An integer loaded into a memory fits it. -/
theorem Memory.fits_ofNat (nw n : Nat) : (Memory.ofNat nw n).fits nw :=
  Memory.fits_ofWords _ (by simp)

/-- What an integer loaded into a memory leaves in each word. -/
theorem Memory.read_ofNat (nw n i : Nat) :
    (Memory.ofNat nw n).read i = if i < nw then BitVec.ofNat 32 (n / 2 ^ (32 * i)) else 0 := by
  rw [Memory.ofNat, Memory.read_ofWords, wordsOf_getD]

end Sys2Proof.Machine
end

