-- ==== Sys2Proof/Laws/Commands.lean ====
section
/-! SUPPORT. Every command is a completion around its `Exec`, and what an `Exec` can change. -/

namespace Sys2Proof.Machine

/-- The `Exec` of each command (30_encoding.md R84). -/
def commandExec (i : Instr) (s : State) : Except CmdError State :=
  match i with
  | .shaInit => shaInitExec s
  | .shaBlock => shaBlockExec s
  | .shaFinal nb => shaFinalExec nb s
  | .shaCompress => shaCompressExec s
  | .modexp => modexpExec Config.mm s
  | .digestToBase => digestToBaseExec s
  | .cmpDigest => cmpDigestExec s

/-- Every command answers a next state: the completion of its `Exec`. -/
theorem exec_eq (i : Instr) (s : State) : exec i s = .next (s.complete (commandExec i s)) := by
  cases i <;> rfl

/-- What `exec` answers is the completion of the command's `Exec`. -/
theorem exec_next {i : Instr} {s t : State} (h : exec i s = .next t) : t = s.complete (commandExec i s) := by
  rw [exec_eq] at h
  exact (Host.Outcome.next.inj h).symm

/-- The writes of a successful command: H and LEN, or RES, or BASE, or MATCH, and nothing else. -/
theorem commandExec_ok {i : Instr} {s t : State} (h : commandExec i s = .ok t) :
    (∃ c l, t = (s.setH c).setLen l) ∨ (∃ c, t = s.setH c) ∨ (∃ m, m.fits s.rsaNw ∧ t = s.setRes m) ∨
    (∃ ws : List Word, ws.length = 5 ∧ t = s.setBase (Memory.ofWords ws)) ∨
    (∃ b, t = s.setStatus (s.status.setMatch b)) := by
  cases i with
  | shaInit =>
    obtain rfl := Except.ok.inj h
    exact .inl ⟨_, _, rfl⟩
  | shaBlock =>
    simp only [commandExec, shaBlockExec] at h
    split at h
    · cases h
    · obtain rfl := Except.ok.inj h
      exact .inl ⟨_, _, rfl⟩
  | shaFinal nb =>
    simp only [commandExec, shaFinalExec] at h
    split at h
    · cases h
    · obtain rfl := Except.ok.inj h
      exact .inl ⟨_, _, rfl⟩
  | shaCompress =>
    obtain rfl := Except.ok.inj h
    exact .inr (.inl ⟨_, rfl⟩)
  | modexp =>
    simp only [commandExec, modexpExec] at h
    split_ifs at h
    obtain rfl := Except.ok.inj h
    exact .inr (.inr (.inl ⟨_, Memory.fits_ofNat _ _, rfl⟩))
  | digestToBase =>
    obtain rfl := Except.ok.inj h
    exact .inr (.inr (.inr (.inl ⟨_, rfl, rfl⟩)))
  | cmpDigest =>
    obtain rfl := Except.ok.inj h
    exact .inr (.inr (.inr (.inr ⟨_, rfl⟩)))

/-- No command reads or writes what the pins bring or what the bus has answered. -/
theorem complete_commandExec_pins (i : Instr) (s : State) :
    (s.complete (commandExec i s)).events = s.events ∧ (s.complete (commandExec i s)).responses = s.responses ∧
    (s.complete (commandExec i s)).draws = s.draws ∧ (s.complete (commandExec i s)).rsaNw = s.rsaNw := by
  cases hr : commandExec i s with
  | error e => simp
  | ok t =>
    obtain ⟨_, _, rfl⟩ | ⟨_, rfl⟩ | ⟨_, _, rfl⟩ | ⟨_, _, rfl⟩ | ⟨_, rfl⟩ := commandExec_ok hr <;> simp

end Sys2Proof.Machine
end

