-- ==== Sys2Proof/Laws/PerInstr.lean ====
section
/-! SUPPORT. One lemma for each command: the word of a well-formed command is in the command's row of the opcode map
(30_encoding.md R76). -/

namespace Sys2Proof.Laws.EncodedInRow

/-- Some row of the opcode map has the command's mnemonic and selects its word. -/
def Statement (i : Instr) : Prop :=
  i.wf = true → ∃ row ∈ opcodeTable, row.mnemonic = i.mnemonic ∧ encode i &&& row.mask = row.value

theorem shaInit : Statement .shaInit := fun _ => ⟨⟨"SHA_INIT", 0xFFFFFFFF, 0x00000001⟩, by decide⟩

theorem shaBlock : Statement .shaBlock := fun _ => ⟨⟨"SHA_BLOCK", 0xFFFFFFFF, 0x00000002⟩, by decide⟩

theorem shaFinal (nb : Nat) : Statement (.shaFinal nb) := by
  intro h
  have hnb : nb ≤ 63 := by simpa [Instr.wf] using h
  refine ⟨⟨"SHA_FINAL", 0xFFFFC0FF, 0x00000003⟩, by decide, rfl, ?_⟩
  have hall : ∀ k < 64, encode (.shaFinal k) &&& 0xFFFFC0FF = 0x00000003 := by decide
  exact hall nb (by omega)

theorem shaCompress : Statement .shaCompress := fun _ => ⟨⟨"SHA_COMPRESS", 0xFFFFFFFF, 0x00000004⟩, by decide⟩

theorem modexp : Statement .modexp := fun _ => ⟨⟨"MODEXP", 0xFFFFFFFF, 0x00000008⟩, by decide⟩

theorem digestToBase : Statement .digestToBase := fun _ => ⟨⟨"DIGEST_TO_BASE", 0xFFFFFFFF, 0x00000009⟩, by decide⟩

theorem cmpDigest : Statement .cmpDigest := fun _ => ⟨⟨"CMP_DIGEST", 0xFFFFFFFF, 0x0000000A⟩, by decide⟩

end Sys2Proof.Laws.EncodedInRow
end

