-- ==== Sys2Proof/Laws/Step.lean ====
section
/-! SUPPORT. Everything a step can do, said once. -/

namespace Sys2Proof.Machine

/-- The engine's turn: nothing pending, a legal word run by its meaning, or an illegal word. -/
theorem engineTurn_cases (s : State) :
    (s.pend = none ∧ engineTurn s = .next s) ∨
    (∃ cw i, s.pend = some cw ∧ decode cw = .ok i ∧ engineTurn s = .next (s.complete (commandExec i s))) ∨
    (∃ cw e, s.pend = some cw ∧ decode cw = .error e ∧ engineTurn s = .next (s.raiseCmdError .illegalCmd)) := by
  unfold engineTurn runWord
  cases hp : s.pend with
  | none => exact .inl ⟨rfl, by simp [hp]⟩
  | some cw =>
    cases hd : decode cw with
    | error e => exact .inr (.inr ⟨cw, e, rfl, hd, by simp [hp, hd]⟩)
    | ok i => exact .inr (.inl ⟨cw, i, rfl, hd, by simp [hp, hd, exec_eq]⟩)

/-- The state a step works on: the event it takes up is no longer at the pins. -/
theorem step_events_nil {s : State} (h : s.events = []) : step s = engineTurn s := by
  simp [step, stepOnce, h]

theorem step_events_cons {s : State} {e : Event} {es : List Event} (h : s.events = e :: es) :
    step s = handleEvent e (s.setEvents es) := by
  simp [step, stepOnce, h]

/-- Everything a step can do: the engine's turn with no event or at its event, one host access, or a hardware
reset. -/
theorem step_cases (s : State) :
    (s.events = [] ∧ step s = engineTurn s) ∨
    (∃ es, s.events = .engine :: es ∧ step s = engineTurn (s.setEvents es)) ∨
    (∃ a es, s.events = .access a :: es ∧ step s = .next ((s.setEvents es).handleAccess a)) ∨
    (∃ es, s.events = .hwReset :: es ∧ step s = .next (s.setEvents es).resetBlock) := by
  cases h : s.events with
  | nil => exact .inl ⟨rfl, step_events_nil h⟩
  | cons e es =>
    have hs := step_events_cons h
    cases e with
    | engine => exact .inr (.inl ⟨es, rfl, hs⟩)
    | access a => exact .inr (.inr (.inl ⟨a, es, rfl, hs⟩))
    | hwReset => exact .inr (.inr (.inr ⟨es, rfl, hs⟩))

/-- One more step of a run. -/
theorem run_succ {n : Nat} {s t : State} (h : step s = .next t) :
    Host.Core.run Sys2Proof.core (n + 1) s = Host.Core.run Sys2Proof.core n t := by
  have : Sys2Proof.core.step s = .next t := h
  simp [Host.Core.run, this]

end Sys2Proof.Machine
end

