-- ==== Sys2Proof/Laws/Sequences.lean ====
section
/-! SUPPORT. How a run over a host sequence composes: what waits at the pins behind the sequence plays no part in it,
so a sequence's effect is that of its parts in order. -/

namespace Sys2Proof.Machine

/-! ### What the pins still bring changes nothing now -/

theorem State.readReg_setEvents (s : State) (r : Reg) (es : List Event) :
    (s.setEvents es).readReg r = ((s.readReg r).1, (s.readReg r).2.setEvents es) := by
  have hv : r.value (s.setEvents es) = r.value s := by cases r <;> rfl
  simp only [State.readReg, State.setEvents_status, State.setEvents_draws, hv]
  by_cases h : (s.status.busy && r.engineOwned) = true
  · simp only [h, if_true]
    rfl
  · simp only [h]
    rfl

theorem State.writeReg_setEvents (s : State) (r : Reg) (v : Word) (es : List Event) :
    (s.setEvents es).writeReg r v = (s.writeReg r v).setEvents es := by
  cases r with
  | ctrl =>
    simp only [State.writeReg, State.ctrlWrite]
    split <;> rfl
  | _ =>
    first
    | rfl
    | (simp only [State.writeReg, State.setEvents_status]
       by_cases h : s.status.busy = true
       · simp only [h, if_true]
         rfl
       · simp only [h]
         rfl)

theorem State.handleAccess_setEvents (s : State) (a : Access) (es : List Event) :
    (s.setEvents es).handleAccess a = (s.handleAccess a).setEvents es := by
  simp only [State.handleAccess, State.setEvents_rsaNw]
  split
  · rfl
  · split
    · rw [State.readReg_setEvents]
      rfl
    · rw [State.writeReg_setEvents]
      rfl

/-- An `Exec` neither reads nor writes what the pins bring or what the bus has answered. -/
theorem complete_setPins (i : Instr) (s : State) (es : List Event) (rs : List Response) :
    ((s.setEvents es).setResponses rs).complete (commandExec i ((s.setEvents es).setResponses rs)) =
      ((s.complete (commandExec i s)).setEvents es).setResponses rs := by
  cases i with
  | shaBlock =>
    simp only [commandExec, shaBlockExec]
    by_cases h : s.len.toNat + 512 > maxLen
    · rw [if_pos (show ((s.setEvents es).setResponses rs).len.toNat + 512 > maxLen from h), if_pos h]
      rfl
    · rw [if_neg (show ¬ ((s.setEvents es).setResponses rs).len.toNat + 512 > maxLen from h), if_neg h]
      rfl
  | shaFinal nb =>
    simp only [commandExec, shaFinalExec]
    by_cases h : s.len.toNat + 8 * nb > maxLen
    · rw [if_pos (show ((s.setEvents es).setResponses rs).len.toNat + 8 * nb > maxLen from h), if_pos h]
      rfl
    · rw [if_neg (show ¬ ((s.setEvents es).setResponses rs).len.toNat + 8 * nb > maxLen from h), if_neg h]
      rfl
  | modexp =>
    simp only [commandExec, modexpExec]
    by_cases h0 : s.mod.val = 0
    · rw [if_pos (show ((s.setEvents es).setResponses rs).mod.val = 0 from h0), if_pos h0]
      rfl
    · rw [if_neg (show ¬ ((s.setEvents es).setResponses rs).mod.val = 0 from h0), if_neg h0]
      by_cases h2 : s.mod.val % 2 = 0
      · rw [if_pos (show ((s.setEvents es).setResponses rs).mod.val % 2 = 0 from h2), if_pos h2]
        rfl
      · rw [if_neg (show ¬ ((s.setEvents es).setResponses rs).mod.val % 2 = 0 from h2), if_neg h2]
        by_cases hb : s.mod.val ≤ s.base.val
        · rw [if_pos (show ((s.setEvents es).setResponses rs).mod.val ≤ ((s.setEvents es).setResponses rs).base.val
            from hb), if_pos hb]
          rfl
        · rw [if_neg (show ¬ ((s.setEvents es).setResponses rs).mod.val ≤
            ((s.setEvents es).setResponses rs).base.val from hb), if_neg hb]
          rfl
  | _ => rfl

theorem complete_setEvents (i : Instr) (s : State) (es : List Event) :
    (s.setEvents es).complete (commandExec i (s.setEvents es)) = (s.complete (commandExec i s)).setEvents es := by
  refine (complete_setPins i s es s.responses).trans ?_
  rw [← (complete_commandExec_pins i s).2.1]
  rfl

theorem complete_setResponses (i : Instr) (s : State) (rs : List Response) :
    (s.setResponses rs).complete (commandExec i (s.setResponses rs)) =
      (s.complete (commandExec i s)).setResponses rs := by
  refine (complete_setPins i s s.events rs).trans ?_
  rw [← (complete_commandExec_pins i s).1]
  rfl

/-! ### Runs -/

/-- The sequence `l` takes the block from `s` to `t`, whatever waits at the pins behind it. -/
def Runs (l : List Event) (s t : State) : Prop :=
  ∀ rest, Host.Core.run Sys2Proof.core l.length (s.setEvents (l ++ rest)) = .next (t.setEvents rest)

theorem Runs.nil (s : State) : Runs [] s s := fun _ => rfl

/-- A run of n + m steps is a run of m after a run of n. -/
theorem run_add (n m : Nat) (s : State) {t : State} (h : Host.Core.run Sys2Proof.core n s = .next t) :
    Host.Core.run Sys2Proof.core (n + m) s = Host.Core.run Sys2Proof.core m t := by
  induction n generalizing s with
  | zero =>
    cases h
    rw [Nat.zero_add]
  | succ n ih =>
    rw [Nat.succ_add]
    simp only [Host.Core.run] at h ⊢
    cases hs : Sys2Proof.core.step s with
    | next u =>
      rw [hs] at h
      exact ih u h
    | fault r =>
      rw [hs] at h
      cases h
    | refused r =>
      rw [hs] at h
      cases h

theorem Runs.append {l l' : List Event} {s t u : State} (h : Runs l s t) (h' : Runs l' t u) : Runs (l ++ l') s u := by
  intro rest
  rw [List.length_append, List.append_assoc, run_add _ _ _ (h (l' ++ rest))]
  exact h' rest

theorem Runs.cons {e : Event} {l : List Event} {s t u : State} (h : Runs [e] s t) (h' : Runs l t u) :
    Runs (e :: l) s u := Runs.append h h'

/-- One event. -/
theorem Runs.one {e : Event} {s t : State} (h : ∀ es, handleEvent e (s.setEvents es) = .next (t.setEvents es)) :
    Runs [e] s t := by
  intro rest
  have hs : step (s.setEvents (e :: rest)) = .next (t.setEvents rest) := by
    rw [step_events_cons rfl]
    exact h rest
  simp only [List.length_singleton, List.cons_append, List.nil_append]
  rw [run_succ hs]
  rfl

/-- One host access. -/
theorem Runs.access (s : State) (a : Access) : Runs [.access a] s (s.handleAccess a) :=
  Runs.one fun es => by simp only [handleEvent, State.handleAccess_setEvents]

/-- One engine turn with a legal word pending. -/
theorem Runs.engine {s : State} {cw : Word} {i : Instr} (hp : s.pend = some cw) (hd : decode cw = .ok i) :
    Runs [.engine] s (s.complete (commandExec i s)) :=
  Runs.one fun es => by
    simp only [handleEvent, engineTurn, State.fetch, State.setEvents_pend, hp, runWord, hd]
    rw [exec_eq, complete_setEvents]

/-- A read of STATUS. -/
theorem Runs.readStatus (s : State) : Runs [rd .status] s (s.respond (.data s.status.word)) := by
  have h := Runs.access s ⟨Reg.status.offset, .bytes 4, .read⟩
  rw [State.handleAccess_page_read s (fun _ => rfl)] at h
  have hr : s.readReg .status = (s.status.word, s) := by
    simp [State.readReg, Reg.engineOwned, Reg.value]
  rwa [hr] at h

/-- A write of a register the instance has. -/
theorem Runs.write {s : State} (hnw : s.rsaNw ≤ 1024) {r : Reg} (hr : r.mapped s.rsaNw = true) (v : Word) :
    Runs [wr r v] s ((s.writeReg r v).respond .written) := by
  have h := Runs.access s ⟨r.offset, .bytes 4, .write v⟩
  rwa [State.handleAccess_write s hnw hr] at h

/-- Polls change nothing but the responses, one each. -/
theorem Runs.polls (n : Nat) (s : State) :
    ∃ rs : List Response, rs.length = s.responses.length + n ∧
      Runs (List.replicate n (rd .status)) s (s.setResponses rs) := by
  induction n generalizing s with
  | zero => exact ⟨s.responses, rfl, Runs.nil _⟩
  | succ n ih =>
    obtain ⟨rs, hlen, h⟩ := ih (s.respond (.data s.status.word))
    refine ⟨rs, ?_, Runs.cons (Runs.readStatus s) h⟩
    rw [hlen, State.respond_responses, List.length_cons]
    omega

/-- A command issued to an idle block and waited for is its acceptance and its completion, and the last response is the
STATUS word after it. -/
theorem Runs.cmdWait {s : State} (hb : s.status.busy = false) (i : Instr) (hd : decode (encode i) = .ok i)
    (polls : Nat) :
    ∃ rs : List Response, rs.length = s.responses.length + polls + 1 ∧ Runs (cmdWait i polls) s
      (((s.accept (encode i)).complete (commandExec i (s.accept (encode i)))).setResponses
        (.data ((s.accept (encode i)).complete (commandExec i (s.accept (encode i)))).status.word :: rs)) := by
  have hcmd : Runs [cmd i] s ((s.accept (encode i)).respond .written) := by
    have h := Runs.access s ⟨Reg.cmd.offset, .bytes 4, .write (encode i)⟩
    rw [State.handleAccess_page_write s (fun _ => rfl)] at h
    simp only [State.writeReg, hb, Bool.false_eq_true, if_false] at h
    exact h
  obtain ⟨rs, hlen, hpolls⟩ := Runs.polls polls ((s.accept (encode i)).respond .written)
  have hturn : Runs [.engine] ((s.accept (encode i)).setResponses rs)
      (((s.accept (encode i)).complete (commandExec i (s.accept (encode i)))).setResponses rs) := by
    have h := Runs.engine (s := (s.accept (encode i)).setResponses rs) (cw := encode i) rfl hd
    rwa [complete_setResponses] at h
  refine ⟨rs, ?_,
    Runs.append (Runs.cons hcmd (Runs.nil _)) (Runs.append hpolls (Runs.cons hturn (Runs.readStatus _)))⟩
  rw [hlen, State.respond_responses, List.length_cons, State.accept_responses]
  omega

/-! ### The host's stages -/

/-- The stages of `sha "p"` are its events. -/
theorem shaStages_flatten (polls : Nat → Nat) (p : List Byte) : (shaStages polls p).flatten = sha polls p := by
  simp [shaStages, sha, shaFullBlocks, List.flatMap_def]

/-- A run in the host's terms. -/
theorem Runs.runEvents {l : List Event} {s t : State} (h : Runs l s t) :
    s.runEvents l = .next (t.setEvents s.events) := h s.events

/-- The error bit of a STATUS word is ERR, and its match bit MATCH. -/
theorem Status.word_err (f : Status) : f.word.getLsbD 2 = f.err := by
  obtain ⟨busy, done, err, ovr, cmpMatch, errcode⟩ := f
  revert busy done err ovr cmpMatch errcode
  decide

theorem Status.word_match (f : Status) : f.word.getLsbD 4 = f.cmpMatch := by
  obtain ⟨busy, done, err, ovr, cmpMatch, errcode⟩ := f
  revert busy done err ovr cmpMatch errcode
  decide

/-- After a stage whose wait read ERR as 0 the host goes on. -/
theorem runStages_go {l : List Event} {ls : List (List Event)} {last : List Event} {s t : State}
    (h : s.runEvents l = .next t) (he : t.lastReadBit 2 = false) :
    runStages (l :: ls) last s = runStages ls last t := by
  simp [runStages, h, he]

/-- After a stage whose wait read ERR as 1 the host stops. -/
theorem runStages_stop {l : List Event} {ls : List (List Event)} {last : List Event} {s t : State}
    (h : s.runEvents l = .next t) (he : t.lastReadBit 2 = true) :
    runStages (l :: ls) last s = .next (.stopped t) := by
  simp [runStages, h, he]

/-- What follows the last wait. -/
theorem runStages_last {last : List Event} {s t : State} (h : s.runEvents last = .next t) :
    runStages [] last s = .next (.completed t) := by
  simp [runStages, h]

end Sys2Proof.Machine
end

