-- ==== Sys2Proof/Tests/Slice0.lean ====
section
/-! SUPPORT. Tests. Expected values are those of spec/95_test_vectors.md (the vector is named) or are written out from
the rule named. Below them, one witness for each obligation that has hypotheses. -/

namespace Sys2Proof.Tests

open Sys2Proof.Machine

/-! ### Helpers -/

/-- The reset state of an instance of five words. -/
def s5 : State := State.resetOf 5

/-- The reset state of an instance of six words. -/
def s6 : State := State.resetOf 6

/-- What `f` sees of a next state. -/
def seen {α : Type} (f : State → α) (o : Host.Outcome State Fault Refusal) : Option α :=
  match o with
  | .next t => some (f t)
  | .fault _ => none
  | .refused _ => none

/-- H, LEN and the STATUS word. -/
def hashOf (s : State) : Vector Word 5 × BitVec 64 × Word := (s.h, s.len, s.status.word)

/-- The exact multiplier, which has `MMCorrect`. -/
def mmExact (a b n : Nat) : Nat := a * b % n

/-- A message block of sixteen equal words. -/
def msgAll (w : Word) : Vector Word 16 := Vector.replicate 16 w

/-- The digest of "abc" (95 V2). -/
def abcDigest : Vector Word 5 := #v[0xA9993E36, 0x4706816A, 0xBA3E2571, 0x7850C26C, 0x9CD0D89D]

/-- A state of five words with the command of `cw` pending. -/
def pending (cw : Word) : State := s5.accept cw

/-- The response to one access in state `s`. -/
def answer (s : State) (a : Access) : Option Response := (s.handleAccess a).responses.head?

/-- A 32-bit read, and a 32-bit write of 7, at an offset. -/
def rdAt (a : Nat) : Access := ⟨a, .bytes 4, .read⟩
def wrAt (a : Nat) : Access := ⟨a, .bytes 4, .write 7⟩

/-! ### Well-formedness: the one check, refused and admitted (30_encoding.md R77) -/

theorem test_wf_refuses_nb64 : Instr.wf (.shaFinal 64) = false := by decide
theorem test_wf_admits_nb63 : Instr.wf (.shaFinal 63) = true := by decide

/-! ### Decoding: each command's word, field by field as 30_encoding.md R75 and R76 give it -/

theorem test_decode_shaInit :
    decode (0b000000000000000000#18 ++ 0b000000#6 ++ 0b0000#4 ++ 0b0001#4) = .ok .shaInit := by decide
theorem test_decode_shaBlock :
    decode (0b000000000000000000#18 ++ 0b000000#6 ++ 0b0000#4 ++ 0b0010#4) = .ok .shaBlock := by decide
theorem test_decode_shaFinal :
    decode (0b000000000000000000#18 ++ 0b100001#6 ++ 0b0000#4 ++ 0b0011#4) = .ok (.shaFinal 33) := by decide
theorem test_decode_shaCompress :
    decode (0b000000000000000000#18 ++ 0b000000#6 ++ 0b0000#4 ++ 0b0100#4) = .ok .shaCompress := by decide
theorem test_decode_modexp :
    decode (0b000000000000000000#18 ++ 0b000000#6 ++ 0b0000#4 ++ 0b1000#4) = .ok .modexp := by decide
theorem test_decode_digestToBase :
    decode (0b000000000000000000#18 ++ 0b000000#6 ++ 0b0000#4 ++ 0b1001#4) = .ok .digestToBase := by decide
theorem test_decode_cmpDigest :
    decode (0b000000000000000000#18 ++ 0b000000#6 ++ 0b0000#4 ++ 0b1010#4) = .ok .cmpDigest := by decide

/-- 95 V22: one illegal word for each reason. -/
theorem test_decode_illegal :
    decode 0x0000000F = .error .undefinedOp ∧ decode 0x00000083 = .error .reservedLow ∧
    decode 0x00000102 = .error .nbNotZero ∧ decode 0x80000001 = .error .reservedHigh := by decide

/-! ### The SHA-1 functions -/

/-- 95 V7; the last, by 0, is 00_scope.md R9. -/
theorem test_rotl32 :
    rotl32 0x80000000 1 = 0x00000001 ∧ rotl32 0x12345678 5 = 0x468ACF02 ∧ rotl32 0x12345678 30 = 0x048D159E ∧
    rotl32 0x67452301 5 = 0xE8A4602C ∧ rotl32 0xEFCDAB89 30 = 0x7BF36AE2 ∧
    rotl32 0x12345678 0 = 0x12345678 := by decide

/-- 95 V8, first row, at the first and last round of each quartile (V9 for the constants). -/
theorem test_round_functions :
    (∀ t ∈ [0, 19], roundFn t 0xF0F0F0F0 0xFF00FF00 0x0F0F0F0F = 0xFF0FFF0F ∧ roundConst t = 0x5A827999) ∧
    (∀ t ∈ [20, 39], roundFn t 0xF0F0F0F0 0xFF00FF00 0x0F0F0F0F = 0x00FF00FF ∧ roundConst t = 0x6ED9EBA1) ∧
    (∀ t ∈ [40, 59], roundFn t 0xF0F0F0F0 0xFF00FF00 0x0F0F0F0F = 0xFF00FF00 ∧ roundConst t = 0x8F1BBCDC) ∧
    (∀ t ∈ [60, 79], roundFn t 0xF0F0F0F0 0xFF00FF00 0x0F0F0F0F = 0x00FF00FF ∧ roundConst t = 0xCA62C1D6) := by decide

/-- 95 V11: schedule words of the "abc" block. -/
theorem test_schedule :
    (schedule (blockWords (pad [0x61, 0x62, 0x63]))).getD 15 0 = 0x00000018 ∧
    (schedule (blockWords (pad [0x61, 0x62, 0x63]))).getD 19 0 = 0x85898E01 ∧
    (schedule (blockWords (pad [0x61, 0x62, 0x63]))).getD 79 0 = 0x822E0879 := by decide +kernel

/-- 95 V12: the working registers after round 0 of the "abc" block. -/
theorem test_first_round :
    shaRound 0 0x61626380 ⟨0x67452301, 0xEFCDAB89, 0x98BADCFE, 0x10325476, 0xC3D2E1F0⟩ =
      ⟨0x0116FC33, 0x67452301, 0x7BF36AE2, 0x98BADCFE, 0x10325476⟩ := by decide

/-- 95 V14: zero count and padded length at the boundaries 55, 56 and 64. -/
theorem test_padding_lengths :
    (zeroCount 55, (pad (List.replicate 55 0)).length) = (0, 64) ∧
    (zeroCount 56, (pad (List.replicate 56 0)).length) = (63, 128) ∧
    (zeroCount 64, (pad (List.replicate 64 0)).length) = (55, 128) := by decide +kernel

/-- 95 V16: "a" × 119, whose length field fills its last block. -/
theorem test_digest_119 :
    sha1 (List.replicate 119 0x61) = #v[0xEE971065, 0xAAA017E0, 0x632A8CA6, 0xC77BB3BF, 0x8B1DFC56] := by
  decide +kernel

/-! ### The commands -/

/-- 95 V17, row 1. -/
theorem test_shaInit :
    seen hashOf (exec .shaInit { s5 with h := #v[0, 0, 0, 0, 0], len := 0x1234 }) =
      some (#v[0x67452301, 0xEFCDAB89, 0x98BADCFE, 0x10325476, 0xC3D2E1F0], 0, 0x00000002) := by decide

/-- 95 V18, row 1. -/
theorem test_shaBlock :
    seen hashOf (exec .shaBlock { s5 with msg := msgAll 0x61616161 }) =
      some (#v[0xDA4968EB, 0x2E377C1F, 0x884E8F52, 0x83524BEB, 0xE74EBDBD], 0x200, 0x00000002) := by decide +kernel

/-- 95 V18, rows 4 and 5: the largest LEN accepted, and the next multiple of 512 above it. -/
theorem test_shaBlock_len_boundary :
    seen hashOf (exec .shaBlock { s5 with len := 0xFFFFFFFFFFFFFDFF }) =
      some (#v[0x92B404E5, 0x56588CED, 0x6C1ACD4E, 0xBF053F68, 0x09F73A93], 0xFFFFFFFFFFFFFFFF, 0x00000002) ∧
    seen hashOf (exec .shaBlock { s5 with len := 0xFFFFFFFFFFFFFE00 }) =
      some (iv, 0xFFFFFFFFFFFFFE00, 0x00000206) := by decide +kernel

/-- 95 V19, row 3: "abc" with the bytes from 3 on all FF. -/
theorem test_shaFinal_ignores_rest :
    seen hashOf (exec (.shaFinal 3) { s5 with msg := (msgAll 0xFFFFFFFF).set 0 0x616263FF }) =
      some (abcDigest, 0x18, 0x00000002) := by decide +kernel

/-- 95 V19, rows 5 and 11: 56 bytes take two blocks; L = 2^64 fails. -/
theorem test_shaFinal_two_blocks_and_overflow :
    seen hashOf (exec (.shaFinal 56) { s5 with msg := msgAll 0x61616161 }) =
      some (#v[0xC2DB330F, 0x6083854C, 0x99D4B5BF, 0xB6E8F29F, 0x201BE699], 0x1C0, 0x00000002) ∧
    seen hashOf (exec (.shaFinal 1) { s5 with len := 0xFFFFFFFFFFFFFFF8 }) =
      some (iv, 0xFFFFFFFFFFFFFFF8, 0x00000206) := by decide +kernel

/-- 95 V21. -/
theorem test_shaCompress :
    seen hashOf (exec .shaCompress { s5 with len := 0x1234 }) =
      some (#v[0x92B404E5, 0x56588CED, 0x6C1ACD4E, 0xBF053F68, 0x09F73A93], 0x1234, 0x00000002) := by decide +kernel

/-- 95 V24 row 1 with the exact multiplier, its calls included; 95 V27 row 5 with one that does not reduce. -/
theorem test_modexp_sequence :
    modExpSeq mmExact 5 65 17 3233 = 2790 ∧
    modExpCalls mmExact 65 17 3233 =
      [⟨1, 1, 3233⟩, ⟨1, 65, 3233⟩, ⟨65, 65, 3233⟩, ⟨992, 992, 3233⟩, ⟨1232, 1232, 3233⟩, ⟨1547, 1547, 3233⟩,
       ⟨789, 65, 3233⟩] ∧
    modExpSeq (fun a b _ => a * b) 5 3 200 7 = 0x447606B683ECF6F6E4A7AE225BFAFF1EAAF8B0A1 := by decide +kernel

/-- 95 V26, rows 1, 4 and 6: the STATUS of each error, in their order; and V24 row 2, which makes no call. -/
theorem test_modexp_errors :
    seen (·.status.word) (exec .modexp { s5 with base := [(0, 5)], exp := [(0, 3)] }) = some 0x00000306 ∧
    seen (·.status.word) (exec .modexp { s5 with base := [(0, 20)], mod := [(0, 10)] }) = some 0x00000406 ∧
    seen (·.status.word) (exec .modexp { s5 with base := [(0, 7)], mod := [(0, 7)] }) = some 0x00000506 ∧
    seen (fun t => (t.res, t.status.word)) (exec .modexp { s5 with base := [(0, 5)], mod := [(0, 7)] }) =
      some ([(0, 1)], 0x00000002) := by decide +kernel

/-- 95 V28, row 2: BASE started all FFFFFFFF, and word 5 is cleared. -/
theorem test_digestToBase :
    seen (·.base) (exec .digestToBase
      { s6 with
        h := #v[1, 2, 3, 4, 5],
        base := [(0, 0xFFFFFFFF), (1, 0xFFFFFFFF), (4, 0xFFFFFFFF), (5, 0xFFFFFFFF)] }) =
      some [(0, 5), (1, 4), (2, 3), (3, 2), (4, 1)] := by decide

/-- 95 V29, rows 1, 3 and 4: equal; a nonzero word above word 4; the words in the wrong order. -/
theorem test_cmpDigest :
    seen (·.status.word) (exec .cmpDigest
      { s6 with
        h := abcDigest,
        res := [(0, 0x9CD0D89D), (1, 0x7850C26C), (2, 0xBA3E2571), (3, 0x4706816A), (4, 0xA9993E36)] }) =
      some 0x00000012 ∧
    seen (·.status.word) (exec .cmpDigest
      { s6 with
        h := abcDigest,
        res := [(0, 0x9CD0D89D), (1, 0x7850C26C), (2, 0xBA3E2571), (3, 0x4706816A), (4, 0xA9993E36), (5, 1)] }) =
      some 0x00000002 ∧
    seen (·.status.word) (exec .cmpDigest
      { s6 with
        h := abcDigest,
        res := [(0, 0xA9993E36), (1, 0x4706816A), (2, 0xBA3E2571), (3, 0x7850C26C), (4, 0x9CD0D89D)] }) =
      some 0x00000002 := by decide +kernel

/-- 95 V23: an illegal word leaves H and sets STATUS to 0x106. -/
theorem test_illegal_word :
    seen (fun t => (t.h, t.status.word)) (step (({ s5 with h := #v[1, 2, 3, 4, 5] } : State).withFetchWord 32 0)) =
      some (#v[1, 2, 3, 4, 5], 0x00000106) := by decide

/-! ### The bus -/

/-- 95 V30: reads in the reset state. -/
theorem test_reset_reads :
    [0x000, 0x004, 0x008, 0x00C, 0x010, 0x020, 0x030, 0x038, 0x03C, 0x040, 0x07C, 0x1000, 0x1010, 0x2000, 0x3000,
      0x4000].map (fun a => answer s5 (rdAt a)) =
    [0x53314D01, 0, 0, 0, 5, 0x67452301, 0xC3D2E1F0, 0, 0, 0, 0, 0, 0, 0, 0, 0].map
      (fun v => some (Response.data v)) := by decide

/-- 95 V31: every access listed gets the bus error, read and written, and 0x2FFC is EXP[1023] when RSA_NW = 1024. -/
theorem test_bus_errors :
    (∀ a ∈ [0x014, 0x01C, 0x034, 0x080, 0xFFC, 0x1014, 0x2FFC, 0x4014, 0x5000, 0x7FFC, 0x002, 0x1001, 0x8000],
      answer s5 (rdAt a) = some (.fault (.busError a)) ∧ answer s5 (wrAt a) = some (.fault (.busError a))) ∧
    answer s5 ⟨0x000, .bytes 1, .read⟩ = some (.fault (.busError 0)) ∧
    answer s5 ⟨0x000, .bytes 2, .read⟩ = some (.fault (.busError 0)) ∧
    answer s5 ⟨0x000, .partialEnables, .write 7⟩ = some (.fault (.busError 0)) ∧
    answer (State.resetOf 1024) (rdAt 0x2FFC) = some (.data 0) := by decide

/-- 95 V32, row 4: W1C of DONE, then of ERR; ERRCODE stays. -/
theorem test_w1c :
    (Status.clear ⟨false, true, true, false, false, 1⟩ 0x2).word = 0x00000104 ∧
    (Status.clear (Status.clear ⟨false, true, true, false, false, 1⟩ 0x2) 0x4).word = 0x00000100 := by decide

/-- 95 V32, row 5: accepting SHA_INIT after an illegal command leaves 0x105. -/
theorem test_acceptance_keeps_err :
    ((({ s5 with status := ⟨false, true, true, false, false, 1⟩ } : State).handleAccess
      ⟨0x00C, .bytes 4, .write 1⟩).status.word) = 0x00000105 := by decide

/-- 95 V32, row 7: writes while SHA_INIT is pending. -/
theorem test_dropped_writes :
    ((pending 1).handleAccess ⟨0x040, .bytes 4, .write 0x11111111⟩).msg[0] = 0 ∧
    ((pending 1).handleAccess ⟨0x00C, .bytes 4, .write 2⟩).pend = some 1 ∧
    ((pending 1).handleAccess ⟨0x00C, .bytes 4, .write 2⟩).status.ovr = true := by decide

/-- 20_memory.md R59: the bytes of `ldmsg "abc"` go to the top of MSG[0]; R60: three bytes load as one integer. -/
theorem test_byte_packing :
    ldmsg [0x61, 0x62, 0x63] = [.access ⟨0x040, .bytes 4, .write 0x61626300⟩] ∧
    operandWord [0x01, 0x02, 0x03, 0x04, 0x05] 0 = 0x02030405 ∧
    operandWord [0x01, 0x02, 0x03, 0x04, 0x05] 1 = 0x00000001 := by decide

/-- 10_state.md R37: a two-block SHA_FINAL takes 160 ticks of the datapath. -/
theorem test_datapath_two_blocks :
    (shaStart (.shaFinal 56) { s5 with msg := msgAll 0x61616161 }).map (ShaDatapath.run 160) =
      some (.inr #v[0xC2DB330F, 0x6083854C, 0x99D4B5BF, 0xB6E8F29F, 0x201BE699]) := by decide +kernel

/-! ### Witnesses: for each obligation with hypotheses, a state and operands that meet them together -/

theorem s5_inv : s5.Inv :=
  { widthLow := by decide, widthHigh := by decide, busyIffPending := by decide, doneIdle := by decide
    matchIdle := by decide, matchSucceeded := by decide, errcodeLegal := by decide
    baseFits := ⟨by decide, by decide⟩, expFits := ⟨by decide, by decide⟩
    modFits := ⟨by decide, by decide⟩, resFits := ⟨by decide, by decide⟩ }

/-- Operands for MODEXP: BASE 2, EXP 0, MOD 7. -/
def sMod : State := { s5 with base := [(0, 2)], mod := [(0, 7)] }

theorem sMod_inv : sMod.Inv :=
  { s5_inv with baseFits := ⟨by decide, by decide⟩, modFits := ⟨by decide, by decide⟩ }

theorem mmExact_correct : MMCorrect mmExact := fun _ _ _ _ _ _ => rfl

theorem witness_DecodeInvertsEncode : Instr.wf (.shaFinal 63) = true := by decide

theorem witness_EncodeInvertsDecode : decode 0x00003F03 = .ok (.shaFinal 63) := by decide

theorem witness_OpcodeMapSelectsTheCommand :
    (⟨"SHA_FINAL", 0xFFFFC0FF, 0x00000003⟩ : OpcodeRow) ∈ opcodeTable ∧
    (0x00003F03 : Word) &&& 0xFFFFC0FF = 0x00000003 := by decide

theorem witness_IllegalWordsCompleteWithIllegalCmd :
    decode 0x00004003 = .error .reservedHigh ∧ s5.status.busy = false ∧
    (pending 0x00004003).engineNext ∧ (pending 0x00004003).pend = some 0x00004003 :=
  ⟨by decide, rfl, .inl rfl, rfl⟩

theorem witness_StepRunsThePendingCommand :
    (pending 0x00003F03).engineNext ∧ ((pending 0x00003F03).setEvents [.engine]).engineNext ∧
    (pending 0x00003F03).pend = some 0x00003F03 ∧ decode 0x00003F03 = .ok (.shaFinal 63) ∧
    Instr.wf (.shaFinal 63) = true :=
  ⟨.inl rfl, .inr rfl, rfl, by decide, by decide⟩

theorem witness_FetchWordIsTheNextToRun : decodeTableWord 32 0x3F03 = some (.shaFinal 63) := by decide

theorem witness_IdleEngineTurnChangesNothing : s5.pend = none ∧ s5.engineNext := ⟨rfl, .inl rfl⟩

theorem witness_CommandErrorsChangeOnlyStatus :
    seen (·.status.errcode) (exec .modexp s5) = some 3 ∧ decode 0 = .error .undefinedOp ∧
    seen (·.status.errcode) (runWord 0 s5) = some 1 := by decide

theorem witness_EachCommandHasItsOwnErrorCodes :
    ∃ t, exec .modexp s5 = .next t ∧ t.status.errcode = 3 := ⟨_, rfl, by decide⟩

theorem witness_CommandsWriteOnlyTheirOutputs : ∃ t, exec .shaCompress s5 = .next t := ⟨_, rfl⟩

theorem witness_PendingCommandCompletes :
    (pending 8).pend = some 8 ∧ (pending 8).status.busy = true ∧ (pending 8).rsaNw ≤ 1024 ∧
    (∀ e ∈ (pending 8).events, e ≠ .hwReset ∧
      ∀ v : Word, v.getLsbD 1 = true → e ≠ .access ⟨0x004, .bytes 4, .write v⟩) :=
  ⟨rfl, rfl, by decide, fun _ h => absurd h List.not_mem_nil⟩

theorem witness_ShaBlockCompressesAndCounts :
    (0xFFFFFFFFFFFFFDFF : BitVec 64).toNat + 512 ≤ 2 ^ 64 - 1 ∧
    2 ^ 64 - 1 < (0xFFFFFFFFFFFFFE00 : BitVec 64).toNat + 512 := by decide

/-- NB at 55, 56 and 63, and LEN at the last value that fits and the first that does not. -/
theorem witness_ShaFinalPadsAndCompresses :
    (0xFFFFFFFFFFFFFE07 : BitVec 64).toNat + 8 * 63 ≤ 2 ^ 64 - 1 ∧
    2 ^ 64 - 1 < (0xFFFFFFFFFFFFFE08 : BitVec 64).toNat + 8 * 63 ∧
    (0 : BitVec 64).toNat + 8 * 55 ≤ 2 ^ 64 - 1 ∧ (0 : BitVec 64).toNat + 8 * 56 ≤ 2 ^ 64 - 1 := by decide

theorem witness_ShaFinalFinishesTheDigest :
    ([] : List Byte).length % 64 = 0 ∧ ([0x61, 0x62, 0x63] : List Byte).length ≤ 63 ∧
    8 * (([] : List Byte).length + ([0x61, 0x62, 0x63] : List Byte).length) ≤ 2 ^ 64 - 1 ∧
    s5.h = compressBlocks iv (blocks []) ∧ s5.len.toNat = 8 * ([] : List Byte).length ∧
    msgBytes ((msgAll 0).set 0 0x61626300) 3 = [0x61, 0x62, 0x63] := by decide

theorem witness_ShaFinalIgnoresBytesFromNbOn :
    msgBytes ((msgAll 0xFFFFFFFF).set 0 0x616263FF) 3 = msgBytes ((msgAll 0).set 0 0x61626300) 3 ∧
    (msgAll 0xFFFFFFFF).set 0 0x616263FF ≠ (msgAll 0).set 0 0x61626300 := by decide

/-- The last round of each quartile and the first of the next, and the least and the largest rotation and bit. -/
theorem witness_CompressionIsEightyRounds :
    (∀ t ∈ [0, 19, 20, 39, 40, 59, 60, 79], t < 80) ∧ 0 < 32 ∧ 31 < 32 := by decide

theorem witness_PaddingHasTheSpecsShape : 8 * (List.replicate 56 (0 : Byte)).length ≤ 2 ^ 64 - 1 := by decide

theorem witness_CommandSequenceComputesTheDigest :
    8 * ([0x61] : List Byte).length ≤ 2 ^ 64 - 1 ∧ s5.rsaNw ≤ 1024 ∧
    (s5.setEvents (sha (fun _ => 1) [0x61])).idle ∧
    (s5.setEvents (sha (fun _ => 1) [0x61])).events = sha (fun _ => 1) [0x61] ++ [] :=
  ⟨by decide, by decide, ⟨rfl, rfl⟩, (List.append_nil _).symm⟩

/-- One state for each case of MODEXP: MOD 0, even, odd with BASE = MOD, and odd with BASE just below it. -/
theorem witness_ModexpChecksThenWritesRes :
    s5.mod.val = 0 ∧ (Memory.val [(2, 1)] ≠ 0 ∧ Memory.val [(2, 1)] % 2 = 0) ∧
    (Memory.val [(0, 7)] % 2 = 1 ∧ Memory.val [(0, 7)] ≤ Memory.val [(0, 7)]) ∧
    (Memory.val [(0, 7)] % 2 = 1 ∧ Memory.val [(0, 6)] < Memory.val [(0, 7)]) := by decide

theorem witness_SequencerComputesThePower :
    MMCorrect mmExact ∧ 3233 % 2 = 1 ∧ 65 < 3233 ∧ 3233 < 2 ^ (32 * 5) :=
  ⟨mmExact_correct, by decide, by decide, by decide⟩

theorem witness_ModexpLeavesThePowerInRes :
    MMCorrect mmExact ∧ sMod.Inv ∧ sMod.mod.val % 2 = 1 ∧ sMod.base.val < sMod.mod.val :=
  ⟨mmExact_correct, sMod_inv, by decide, by decide⟩

/-- The highest and the lowest bit of E = 17, a width that holds E, and a k with E < 2^k. -/
theorem witness_SequencerCallCount :
    4 < bitlen 17 ∧ 0 < bitlen 17 ∧ 2 ^ 160 - 1 < 2 ^ (32 * 5) ∧ 17 < 2 ^ 5 := by decide +kernel

theorem witness_SequencerCallsStayBelowTheModulus :
    MMCorrect mmExact ∧ 7 % 2 = 1 ∧ 3 < 7 ∧ (⟨4, 3, 7⟩ : MmCall) ∈ modExpCalls mmExact 3 5 7 :=
  ⟨mmExact_correct, by decide, by decide, by decide⟩

theorem witness_DatapathRefinesTheCommands :
    (∃ d t, Instr.wf .shaCompress = true ∧ shaStart .shaCompress s5 = some d ∧ exec .shaCompress s5 = .next t ∧
      t.status.errcode = 0) ∧
    MMCorrect mmExact ∧ 7 % 2 = 1 ∧ 3 < 7 :=
  ⟨⟨_, _, rfl, rfl, rfl, rfl⟩, mmExact_correct, by decide, by decide⟩

theorem witness_DigestToBaseLoadsTheDigest : 5 ≤ s5.rsaNw := by decide

theorem witness_MatchMeansEveryWordAgrees : s5.Inv ∧ ∃ t, exec .cmpDigest s5 = .next t := ⟨s5_inv, _, rfl⟩

theorem witness_OperandValueIsTheSumOfItsWords : Memory.fits 5 [(0, 1), (4, 0xFFFFFFFF)] := ⟨by decide, by decide⟩

theorem witness_EqualWordsAreEqualMemories :
    Memory.fits 5 [(0, 1), (4, 0xFFFFFFFF)] ∧ Memory.fits 5 [(1, 2)] :=
  ⟨⟨by decide, by decide⟩, ⟨by decide, by decide⟩⟩

theorem witness_ByteBlocksLoadAsTheirIntegers : (List.replicate 20 (0xFF : Byte)).length ≤ 4 * 5 := by decide

theorem witness_ReadsReturnWhatTheMapSays :
    s5.rsaNw ≤ 1024 ∧ s5.status.busy = false ∧ (pending 1).rsaNw ≤ 1024 ∧ (pending 1).status.busy = true ∧
    4 < s5.rsaNw := by decide

/-- Refused at each boundary of each range, and admitted just beside it. -/
theorem witness_BusErrorsAreExactlyTheRefusedAccesses :
    s5.rsaNw ≤ 1024 ∧
    (∀ a ∈ [0x014, 0x01C, 0x034, 0x080, 0xFFC, 0x1014, 0x1FFC, 0x4014, 0x4FFC, 0x5000, 0x8000, 0x002, 0x013],
      (rdAt a).target s5.rsaNw = none) ∧
    (∀ a ∈ [0x010, 0x020, 0x030, 0x038, 0x07C, 0x1000, 0x1010, 0x2000, 0x4010],
      (rdAt a).target s5.rsaNw ≠ none) := by decide

theorem witness_NoRegisterAliasesAnother :
    (5 : Nat) ≤ 1024 ∧ Reg.mapped 5 (.base 4) = true ∧ (Reg.base 4).offset = (Reg.base 4).offset := by decide

theorem witness_IdleWritesStoreTheWord :
    s5.rsaNw ≤ 1024 ∧ s5.status.busy = false ∧ 4 < s5.rsaNw ∧ s5.base.fits s5.rsaNw :=
  ⟨by decide, rfl, by decide, s5_inv.baseFits⟩

theorem witness_BusyWritesAreDroppedWithOvr :
    (pending 1).rsaNw ≤ 1024 ∧ (pending 1).status.busy = true ∧ Reg.mapped (pending 1).rsaNw (.exp 4) = true ∧
    Reg.exp 4 ≠ .id ∧ Reg.exp 4 ≠ .param ∧ Reg.exp 4 ≠ .ctrl ∧ Reg.exp 4 ≠ .status ∧ (∀ i, Reg.exp 4 ≠ .res i) :=
  ⟨by decide, rfl, by decide, by decide, by decide, by decide, by decide, fun _ h => Reg.noConfusion h⟩

theorem witness_ReadOnlyWritesAreIgnored : s5.rsaNw ≤ 1024 ∧ ∃ i < s5.rsaNw, 0x4010 = 0x4000 + 4 * i :=
  ⟨by decide, 4, by decide, by decide⟩

theorem witness_CmdWriteIsAccepted : s5.status.busy = false := rfl

theorem witness_CmdWriteWhileBusyIsLost :
    (pending 8).status.busy = true ∧ (pending 8).pend = some 8 ∧ decode 8 = .ok .modexp :=
  ⟨rfl, rfl, by decide⟩

theorem witness_CtrlWriteSetsIeOrResets :
    (0x00000001 : Word).getLsbD 1 = false ∧ (0x00000003 : Word).getLsbD 1 = true := by decide

theorem witness_RepeatedAccessesAreIdempotent :
    s5.Inv ∧ Reg.mapped s5.rsaNw (.mod 4) = true ∧ Reg.mod 4 ≠ .cmd ∧ s5.status.busy = false :=
  ⟨s5_inv, by decide, by decide, rfl⟩

/-- An idle state in which ERR is set, as a failed command left it. -/
def sErr : State := { s5 with status := ⟨false, true, true, false, false, 5⟩ }

theorem sErr_inv : sErr.Inv :=
  { s5_inv with
    busyIffPending := rfl, doneIdle := by decide, matchIdle := by decide, matchSucceeded := by decide
    errcodeLegal := by decide }

/-- Whether the host stopped at a `wait`. -/
def hostStopped : Host.Outcome HostEnd Fault Refusal → Option Bool
  | .next (.stopped _) => some true
  | .next (.completed _) => some false
  | _ => none

/-- A `wait` that ends with ERR = 1 stops the host, though the command itself succeeded; with ERR clear it goes on
(41_modexp.md R135). -/
theorem test_host_stops_at_err :
    hostStopped ((⟨[cmdWait .shaInit 1], []⟩ : HostSequence).run sErr) = some true ∧
    hostStopped ((⟨[cmdWait .shaInit 1], []⟩ : HostSequence).run s5) = some false := by decide

theorem witness_EncryptSequenceLeavesTheResult :
    s5.Inv ∧ s5.idle ∧ s5.status.err = false ∧ 6 < 2 ^ (32 * s5.rsaNw) ∧ 5 < 2 ^ (32 * s5.rsaNw) ∧
    7 < 2 ^ (32 * s5.rsaNw) ∧ 7 % 2 = 1 ∧ 6 < 7 ∧
    (sErr.Inv ∧ sErr.idle ∧ sErr.status.err = true) ∧ 10 % 2 = 0 ∧ 0 % 2 = 0 ∧ 7 ≤ 7 :=
  ⟨s5_inv, ⟨rfl, rfl⟩, rfl, by decide, by decide, by decide, by decide, by decide,
    ⟨sErr_inv, ⟨rfl, rfl⟩, rfl⟩, by decide, by decide, by decide⟩

/-- The digest of "a" lies strictly between the two moduli of the next witness. -/
theorem digest_a_between : 7 ≤ digestValue (sha1 [0x61]) ∧ digestValue (sha1 [0x61]) < 2 ^ 160 + 1 := by
  decide +kernel

theorem witness_SignSequenceSignsTheDigest :
    s6.Inv ∧ s6.idle ∧ 8 * ([0x61] : List Byte).length ≤ 2 ^ 64 - 1 ∧ 3 < 2 ^ (32 * s6.rsaNw) ∧
    2 ^ 160 + 1 < 2 ^ (32 * s6.rsaNw) ∧ s6.status.err = false ∧ (2 ^ 160 + 1) % 2 = 1 ∧
    digestValue (sha1 [0x61]) < 2 ^ 160 + 1 ∧
    (sErr.Inv ∧ sErr.idle ∧ sErr.status.err = true) ∧ 10 % 2 = 0 ∧ 0 % 2 = 0 ∧ 7 ≤ digestValue (sha1 [0x61]) :=
  ⟨{ s5_inv with widthLow := by decide, widthHigh := by decide, baseFits := ⟨rfl, rfl⟩, expFits := ⟨rfl, rfl⟩
                 modFits := ⟨rfl, rfl⟩, resFits := ⟨rfl, rfl⟩ },
    ⟨rfl, rfl⟩, by decide, by decide, by decide, rfl, by decide, digest_a_between.2,
    ⟨sErr_inv, ⟨rfl, rfl⟩, rfl⟩, by decide, by decide, digest_a_between.1⟩

theorem witness_VerifySequenceSetsMatch :
    s5.Inv ∧ s5.idle ∧ 8 * ([0x61] : List Byte).length ≤ 2 ^ 64 - 1 ∧ 6 < 2 ^ (32 * s5.rsaNw) ∧
    3 < 2 ^ (32 * s5.rsaNw) ∧ 7 < 2 ^ (32 * s5.rsaNw) ∧ s5.status.err = false ∧ 7 % 2 = 1 ∧ 6 < 7 ∧
    (sErr.Inv ∧ sErr.idle ∧ sErr.status.err = true) ∧ 10 % 2 = 0 ∧ 0 % 2 = 0 ∧ 7 ≤ 7 :=
  ⟨s5_inv, ⟨rfl, rfl⟩, by decide, by decide, by decide, by decide, rfl, by decide, by decide,
    ⟨sErr_inv, ⟨rfl, rfl⟩, rfl⟩, by decide, by decide, by decide⟩

theorem witness_BothResetsGiveTheResetValues :
    ((pending 8).setEvents [.hwReset]).events = .hwReset :: [] ∧ (0x00000002 : Word).getLsbD 1 = true ∧
    ((pending 8).setEvents srst).events = .access ⟨0x004, .bytes 4, .write 0x00000002⟩ :: [] :=
  ⟨rfl, by decide, rfl⟩

theorem witness_IrqFollowsIeAndDone :
    s5.ie = false ∧ s5.status.busy = false ∧ (∃ t, exec .shaInit s5 = .next t) ∧ decode 0 = .error .undefinedOp ∧
    (∃ t, runWord 0 s5 = .next t) :=
  ⟨rfl, rfl, ⟨_, rfl⟩, by decide, ⟨_, rfl⟩⟩

theorem witness_ResetHasTheInvariant : 5 ≤ 5 ∧ 5 ≤ 1024 ∧ 5 ≤ 1024 ∧ 1024 ≤ 1024 := by decide

theorem witness_EveryStepKeepsTheInvariant : sMod.Inv ∧ ∃ t, step sMod = .next t := ⟨sMod_inv, _, rfl⟩

/-- RES changes in each of the three ways: a hardware reset, a soft reset, and a MODEXP (here with EXP = 0, so RES is
1). -/
theorem witness_OnlyModexpOrResetChangesRes :
    sMod.rsaNw ≤ 1024 ∧
    seen (·.res) (step { s5 with res := [(0, 1)], events := [.hwReset] }) = some [] ∧
    seen (·.res) (step { s5 with res := [(0, 1)], events := srst }) = some [] ∧
    seen (·.res) (step (sMod.accept 8)) = some [(0, 1)] ∧ (sMod.accept 8).res = [] := by decide

theorem witness_ExpIsNeverReadBack :
    s5.sameButExp { s5 with exp := [(0, 3)] } ∧ s5 ≠ { s5 with exp := [(0, 3)] } ∧ s5.status.busy = false :=
  ⟨rfl, by decide, rfl⟩

theorem witness_WriteAndCompletionInEitherOrder :
    (pending 8).rsaNw ≤ 1024 ∧ (pending 8).status.busy = true ∧ (pending 8).pend = some 8 ∧
    decode 8 = .ok .modexp :=
  ⟨by decide, rfl, rfl, by decide⟩

end Sys2Proof.Tests
end

section
/-! PROOFS. The SHA-1 functions of Machine/Sha1.lean: rotation by bits, the exclusive-or forms of Ch and Maj, the length
of the schedule, and the compression function as eighty single rounds (spec/40_sha1.md R96 to R102). -/

namespace Sys2Proof.Machine

/-- Rotation left by `n` moves bit `j - n` (mod 32) to bit `j` (00_scope.md R9). -/
theorem rotl32_getLsbD (x : Word) {n j : Nat} (hn : n < 32) (hj : j < 32) :
    (rotl32 x n).getLsbD j = x.getLsbD ((j + 32 - n) % 32) := by
  simp only [rotl32, BitVec.getLsbD_or, BitVec.getLsbD_shiftLeft, BitVec.getLsbD_ushiftRight]
  by_cases hlow : j < n
  · -- the bit wraps round: only the right shift reaches it
    have hidx : (j + 32 - n) % 32 = 32 - n + j := by omega
    simp [hlow, hidx]
  · -- the bit comes from the left shift, and the right shift has only zeros there
    have hidx : (j + 32 - n) % 32 = j - n := by omega
    have hzero : x.getLsbD (32 - n + j) = false := x.getLsbD_of_ge _ (by omega)
    simp [hlow, hj, hidx, hzero]

/-- The two halves of Ch are disjoint, so their union is their exclusive or (40_sha1.md R96). -/
theorem ch_eq_xor (b c d : Word) : ch b c d = (b &&& c) ^^^ (~~~b &&& d) := by
  ext i hi
  simp only [ch, BitVec.getElem_or, BitVec.getElem_xor, BitVec.getElem_and, BitVec.getElem_not]
  cases b[i] <;> simp

/-- A bit is set in an odd number of the three pairs exactly if it is set in some pair (40_sha1.md R96). -/
theorem maj_eq_xor (x y z : Word) : maj x y z = (x &&& y) ^^^ (x &&& z) ^^^ (y &&& z) := by
  ext i hi
  simp only [maj, BitVec.getElem_or, BitVec.getElem_xor, BitVec.getElem_and]
  cases x[i] <;> cases y[i] <;> simp

@[simp] theorem extendSchedule_length (n : Nat) (ws : List Word) : (extendSchedule n ws).length = ws.length + n := by
  induction n generalizing ws with
  | zero => rfl
  | succ n ih => rw [extendSchedule, ih, List.length_cons]; omega

@[simp] theorem schedule_length (m : Vector Word 16) : (schedule m).length = 80 := by
  simp [schedule]

/-- The rounds over a list with one more word at its end are the rounds over the list and then one round. -/
theorem shaRounds_concat (t : Nat) (ws : List Word) (w : Word) (r : Working) :
    shaRounds t (ws ++ [w]) r = shaRound (t + ws.length) w (shaRounds t ws r) := by
  induction ws generalizing t r with
  | nil => rfl
  | cons v vs ih =>
    calc shaRounds t (v :: vs ++ [w]) r
        = shaRounds (t + 1) (vs ++ [w]) (shaRound t v r) := rfl
      _ = shaRound (t + 1 + vs.length) w (shaRounds (t + 1) vs (shaRound t v r)) := ih ..
      _ = shaRound (t + (v :: vs).length) w (shaRounds t (v :: vs) r) := by
        rw [List.length_cons, Nat.add_right_comm, Nat.add_assoc]; rfl

/-- The working registers before round `t` of a compression: what the first `t` rounds leave (40_sha1.md R100). -/
def workingBefore (h : Vector Word 5) (m : Vector Word 16) (t : Nat) : Working :=
  shaRounds 0 ((schedule m).take t) ⟨h[0], h[1], h[2], h[3], h[4]⟩

theorem workingBefore_zero (h : Vector Word 5) (m : Vector Word 16) :
    workingBefore h m 0 = ⟨h[0], h[1], h[2], h[3], h[4]⟩ := rfl

theorem workingBefore_succ (h : Vector Word 5) (m : Vector Word 16) {t : Nat} (ht : t < 80) :
    workingBefore h m (t + 1) = shaRound t ((schedule m).getD t 0) (workingBefore h m t) := by
  have hlen : t < (schedule m).length := by simpa using ht
  have htake : (schedule m).take (t + 1) = (schedule m).take t ++ [(schedule m).getD t 0] := by
    rw [List.getD_eq_getElem _ _ hlen, List.take_append_getElem hlen]
  rw [workingBefore, htake, shaRounds_concat, List.length_take_of_le hlen.le, Nat.zero_add, workingBefore]

theorem compress_eq_feedForward (h : Vector Word 5) (m : Vector Word 16) :
    compress h m = feedForward h (workingBefore h m 80) := by
  rw [compress, workingBefore, List.take_of_length_le (schedule_length m).le]

/-- Settles O23: the registers between the rounds are those after each prefix of the schedule. The round functions and
constants are the tables' by definition; Ch, Maj and the rotation are compared bit by bit. -/
theorem compressionIsEightyRounds : Obligations.CompressionIsEightyRounds := by
  unfold Obligations.CompressionIsEightyRounds
  refine ⟨fun _ _ _ _ _ => ⟨rfl, rfl⟩, fun b c d => ⟨ch_eq_xor b c d, maj_eq_xor b c d⟩,
    fun x _ _ hn hj => rotl32_getLsbD x hn hj, fun h m => ?_⟩
  exact ⟨workingBefore h m, workingBefore_zero h m, fun _ ht => workingBefore_succ h m ht, compress_eq_feedForward h m⟩

end Sys2Proof.Machine
end

section
/-! PROOFS. The sequencer's loop (spec/41_modexp.md R130): its accumulator after each exponent bit, its calls of the
multiplier and their number. -/

namespace Sys2Proof.Machine

/-- `bitlen` is the least exponent of a power of two above its argument (00_scope.md R10). -/
theorem bitlen_le_iff {x k : Nat} : bitlen x ≤ k ↔ x < 2 ^ k := by
  unfold bitlen
  split
  · next hx => simp [hx]
  · next hx => exact Nat.log2_lt hx

theorem lt_two_pow_bitlen (x : Nat) : x < 2 ^ bitlen x := bitlen_le_iff.mp le_rfl

@[simp] theorem bitlen_zero : bitlen 0 = 0 := rfl

section SequencerLoop

variable (mm : Nat → Nat → Nat → Nat) (b e n : Nat)

/-- One turn of the sequencer's loop on exponent bit `i`: square, then multiply where the bit is 1 (41_modexp.md
R130). -/
def bitStep (i r : Nat) : Nat := if e.testBit i then mm (mm r r n) b n else mm r r n

/-- The calls of the multiplier in that turn, in order (41_modexp.md R130). -/
def bitCalls (i r : Nat) : List MmCall :=
  if e.testBit i then [⟨r, r, n⟩, ⟨mm r r n, b, n⟩] else [⟨r, r, n⟩]

theorem modExpLoop_succ (i r : Nat) :
    modExpLoop mm b e n (i + 1) r = modExpLoop mm b e n i (bitStep mm b e n i r) := rfl

theorem modExpLoopCalls_succ (i r : Nat) :
    modExpLoopCalls mm b e n (i + 1) r =
      bitCalls mm b e n i r ++ modExpLoopCalls mm b e n i (bitStep mm b e n i r) := by
  simp only [modExpLoopCalls, bitCalls, bitStep]
  split <;> rfl

theorem bitCalls_length (i r : Nat) : (bitCalls mm b e n i r).length = 1 + (e.testBit i).toNat := by
  unfold bitCalls
  cases e.testBit i <;> rfl

/-- The accumulator after the loop has taken `j` exponent bits, from the highest down (41_modexp.md R130). -/
def accumulatorAfter : Nat → Nat
  | 0 => 1 % n
  | j + 1 => bitStep mm b e n (bitlen e - 1 - j) (accumulatorAfter j)

/-- The accumulator with `i` exponent bits still to come (41_modexp.md R130). -/
def accumulator (i : Nat) : Nat := accumulatorAfter mm b e n (bitlen e - i)

theorem accumulator_bitlen : accumulator mm b e n (bitlen e) = 1 % n := by
  rw [accumulator, Nat.sub_self]; rfl

theorem accumulator_of_lt {i : Nat} (hi : i < bitlen e) :
    accumulator mm b e n i = bitStep mm b e n i (accumulator mm b e n (i + 1)) := by
  have hcount : bitlen e - i = bitlen e - (i + 1) + 1 := by omega
  have hbit : bitlen e - 1 - (bitlen e - (i + 1)) = i := by omega
  rw [accumulator, hcount, accumulatorAfter, hbit, accumulator]

/-- The loop's last `k` turns take the accumulator to its end value. -/
theorem modExpLoop_accumulator {k : Nat} (hk : k ≤ bitlen e) :
    modExpLoop mm b e n k (accumulator mm b e n k) = accumulator mm b e n 0 := by
  induction k with
  | zero => rfl
  | succ k ih => rw [modExpLoop_succ, ← accumulator_of_lt mm b e n hk, ih (by omega)]

/-- The calls of the loop's last `k` turns are those of each turn, from bit `k - 1` down. -/
theorem modExpLoopCalls_accumulator {k : Nat} (hk : k ≤ bitlen e) :
    modExpLoopCalls mm b e n k (accumulator mm b e n k) =
      (List.range k).reverse.flatMap fun i => bitCalls mm b e n i (accumulator mm b e n (i + 1)) := by
  induction k with
  | zero => rfl
  | succ k ih =>
    rw [modExpLoopCalls_succ, ← accumulator_of_lt mm b e n hk, ih (by omega), List.range_succ,
      List.reverse_concat, List.flatMap_cons]

/-- Each turn makes one call, and one more where its exponent bit is 1. -/
theorem modExpLoopCalls_length (k r : Nat) :
    (modExpLoopCalls mm b e n k r).length = k + (List.range k).countP e.testBit := by
  induction k generalizing r with
  | zero => rfl
  | succ k ih =>
    rw [modExpLoopCalls_succ, List.length_append, bitCalls_length, ih, List.range_succ, List.countP_append,
      List.countP_singleton]
    cases e.testBit k <;> simp <;> omega

theorem modExpSeq_eq_accumulator (nw : Nat) : modExpSeq mm nw b e n = accumulator mm b e n 0 % 2 ^ (32 * nw) := by
  rw [modExpSeq, ← accumulator_bitlen mm b e n, modExpLoop_accumulator mm b e n le_rfl]

theorem modExpCalls_eq_flatMap :
    modExpCalls mm b e n =
      (List.range (bitlen e)).reverse.flatMap fun i => bitCalls mm b e n i (accumulator mm b e n (i + 1)) := by
  rw [modExpCalls, ← accumulator_bitlen mm b e n, modExpLoopCalls_accumulator mm b e n le_rfl]

theorem modExpCalls_length :
    (modExpCalls mm b e n).length = bitlen e + (List.range (bitlen e)).countP e.testBit :=
  modExpLoopCalls_length mm b e n (bitlen e) (1 % n)

/-- At most two calls for each bit of an exponent of `nw` words. -/
theorem modExpCalls_length_le {nw : Nat} (he : e < 2 ^ (32 * nw)) : (modExpCalls mm b e n).length ≤ 2 * 32 * nw := by
  have hbits : bitlen e ≤ 32 * nw := bitlen_le_iff.mpr he
  have hones : (List.range (bitlen e)).countP e.testBit ≤ bitlen e := by
    simpa using List.countP_le_length (p := e.testBit) (l := List.range (bitlen e))
  rw [modExpCalls_length]
  omega

end SequencerLoop

/-- Settles O30: the values r(i) are the accumulator with i exponent bits still to come. -/
theorem sequencerCallCount : Obligations.SequencerCallCount := by
  unfold Obligations.SequencerCallCount
  intro mm nw b e n
  have hbit (i : Nat) : e / 2 ^ i % 2 = 1 ↔ e.testBit i = true := by
    rw [Nat.testBit_eq_decide_div_mod_eq, decide_eq_true_iff]
  simp only [hbit]
  exact ⟨⟨accumulator mm b e n, accumulator_bitlen mm b e n, fun i hi => accumulator_of_lt mm b e n hi,
    modExpSeq_eq_accumulator mm b e n nw, modExpCalls_eq_flatMap mm b e n⟩, modExpCalls_length mm b e n,
    modExpCalls_length_le mm b e n, lt_two_pow_bitlen e, fun k => bitlen_le_iff.mpr, rfl, rfl⟩

end Sys2Proof.Machine
end

section
/-! PROOFS. What each command writes, and with it the frame of every command (spec/10_state.md R27 to R34). -/

namespace Sys2Proof.Machine

/-- The writes a command may make of a state `s`, as the state `t` that holds them (40_sha1.md R106 to R109;
41_modexp.md R132 to R134). -/
def CommandWrites (i : Instr) (s t : State) : Prop :=
  match i with
  | .shaInit | .shaBlock | .shaFinal _ => ∃ c l, t = (s.setH c).setLen l
  | .shaCompress => ∃ c, t = s.setH c
  | .modexp => ∃ m, t = s.setRes m
  | .digestToBase => ∃ m, t = s.setBase m
  | .cmpDigest => ∃ b, t = s.setStatus (s.status.setMatch b)

/-- A command that succeeds makes its own writes and no other. -/
theorem commandExec_writes {i : Instr} {s t : State} (h : commandExec i s = .ok t) : CommandWrites i s t := by
  cases i with
  | shaInit => exact ⟨_, _, (Except.ok.inj h).symm⟩
  | shaCompress | digestToBase | cmpDigest => exact ⟨_, (Except.ok.inj h).symm⟩
  | shaBlock =>
    simp only [commandExec, shaBlockExec] at h
    split_ifs at h
    exact ⟨_, _, (Except.ok.inj h).symm⟩
  | shaFinal nb =>
    simp only [commandExec, shaFinalExec] at h
    split_ifs at h
    exact ⟨_, _, (Except.ok.inj h).symm⟩
  | modexp =>
    simp only [commandExec, modexpExec] at h
    split_ifs at h
    exact ⟨_, (Except.ok.inj h).symm⟩

/-- Settles O14: an error writes no register but STATUS, and a success is the command's own writes. -/
theorem commandsWriteOnlyTheirOutputs : Obligations.CommandsWriteOnlyTheirOutputs := by
  unfold Obligations.CommandsWriteOnlyTheirOutputs
  intro i s t ht
  obtain rfl := exec_next ht
  cases hr : commandExec i s with
  | error e => simp
  | ok u =>
    have hw := commandExec_writes hr
    cases i with
    | shaInit | shaBlock | shaFinal =>
      obtain ⟨c, l, rfl⟩ := hw
      simp
    | shaCompress | modexp | digestToBase | cmpDigest =>
      obtain ⟨v, rfl⟩ := hw
      simp

end Sys2Proof.Machine
end

section
/-! PROOFS. The invariant through every operation a step is made of, and so through every step (spec/10_state.md R23,
R36; 20_memory.md R52; 60_exceptions.md R147). -/

namespace Sys2Proof.Machine

/-- The part of the invariant that says nothing of the engine: the operand width is an admitted one, and the operand
memories are canonical and within it (00_scope.md R7; 20_memory.md R52). -/
structure State.OperandsFit (s : State) : Prop where
  widthLow : 5 ≤ s.rsaNw
  widthHigh : s.rsaNw ≤ 1024
  base : s.base.fits s.rsaNw
  exp : s.exp.fits s.rsaNw
  mod : s.mod.fits s.rsaNw
  res : s.res.fits s.rsaNw

theorem State.Inv.operandsFit {s : State} (hs : s.Inv) : s.OperandsFit :=
  ⟨hs.widthLow, hs.widthHigh, hs.baseFits, hs.expFits, hs.modFits, hs.resFits⟩

theorem commandExec_operandsFit {i : Instr} {s t : State} (hs : s.OperandsFit) (h : commandExec i s = .ok t) :
    t.OperandsFit := by
  obtain ⟨_, _, rfl⟩ | ⟨_, rfl⟩ | ⟨m, hm, rfl⟩ | ⟨ws, hws, rfl⟩ | ⟨_, rfl⟩ := commandExec_ok h
  · exact { hs with }
  · exact { hs with }
  · exact { hs with res := hm }
  · exact { hs with base := Memory.fits_ofWords ws (hws ▸ hs.widthLow) }
  · exact { hs with }

/-- A success leaves code 0 and an idle engine, so only the operands matter. -/
theorem State.OperandsFit.inv_succeed {t : State} (ht : t.OperandsFit) : t.succeed.Inv where
  widthLow := ht.widthLow
  widthHigh := ht.widthHigh
  busyIffPending := rfl
  doneIdle _ := rfl
  matchIdle _ := rfl
  matchSucceeded _ := rfl
  errcodeLegal := Nat.zero_le 5
  baseFits := ht.base
  expFits := ht.exp
  modFits := ht.mod
  resFits := ht.res

namespace State.Inv

variable {s : State} (hs : s.Inv)
include hs

theorem setEvents (es : List Event) : (s.setEvents es).Inv := { hs with }

theorem respond (r : Response) : (s.respond r).Inv := { hs with }

theorem drawn : s.drawn.Inv := { hs with }

theorem setIe (v : Bool) : (s.setIe v).Inv := { hs with }

theorem overrun : s.overrun.Inv := { hs with }

/-- DONE is only ever cleared by a write of STATUS. -/
theorem clear (v : Word) : (s.setStatus (s.status.clear v)).Inv :=
  { hs with doneIdle := fun hd => hs.doneIdle (Bool.and_eq_true_iff.mp hd).1 }

theorem accept (cw : Word) : (s.accept cw).Inv :=
  { hs with busyIffPending := rfl, doneIdle := fun hd => (nomatch hd), matchIdle := fun hm => (nomatch hm),
            matchSucceeded := fun hm => (nomatch hm) }

theorem resetBlock : s.resetBlock.Inv where
  widthLow := hs.widthLow
  widthHigh := hs.widthHigh
  busyIffPending := rfl
  doneIdle _ := rfl
  matchIdle _ := rfl
  matchSucceeded _ := rfl
  errcodeLegal := Nat.zero_le 5
  baseFits := Memory.fits_nil _
  expFits := Memory.fits_nil _
  modFits := Memory.fits_nil _
  resFits := Memory.fits_nil _

/-- An input word stored in a mapped register keeps the operands fitting. -/
theorem storeInput {r : Reg} (hr : r.mapped s.rsaNw = true) (v : Word) : (s.storeInput r v).Inv := by
  cases r with
  | id | ctrl | status | cmd | param | res => exact hs
  | h | lenLo | lenHi | msg => exact { hs with }
  | base i => exact { hs with baseFits := Memory.fits_write hs.baseFits (of_decide_eq_true hr) v }
  | exp i => exact { hs with expFits := Memory.fits_write hs.expFits (of_decide_eq_true hr) v }
  | mod i => exact { hs with modFits := Memory.fits_write hs.modFits (of_decide_eq_true hr) v }

theorem writeReg {r : Reg} (hr : r.mapped s.rsaNw = true) (v : Word) : (s.writeReg r v).Inv := by
  obtain h | h | ⟨-, -, h⟩ | h | ⟨-, -, h⟩ | ⟨-, h⟩ | ⟨-, h⟩ := s.writeReg_cases r v <;> rw [h]
  · exact hs
  · exact hs.setIe _
  · exact hs.resetBlock
  · exact hs.clear v
  · exact hs.accept v
  · exact hs.overrun
  · exact hs.storeInput hr v

theorem readReg (r : Reg) : (s.readReg r).2.Inv := by
  obtain ⟨-, -, h⟩ | ⟨-, h⟩ := s.readReg_cases r <;> rw [h]
  · exact hs.drawn
  · exact hs

theorem handleAccess (a : Access) : (s.handleAccess a).Inv := by
  obtain ⟨-, h⟩ | ⟨r, -, -, h⟩ | ⟨r, v, hr, -, h⟩ := s.handleAccess_cases a <;> rw [h]
  · exact hs.respond _
  · exact (hs.readReg r).respond _
  · obtain ⟨-, -, hmapped⟩ := (Access.target_eq_some hs.widthHigh).mp hr
    exact (hs.writeReg hmapped v).respond _

/-- A command error leaves MATCH as it was, and while a command is pending MATCH is 0. -/
theorem raiseCmdError {cw : Word} (hp : s.pend = some cw) (e : CmdError) : (s.raiseCmdError e).Inv := by
  have hbusy : s.status.busy = true := by rw [hs.busyIffPending, hp]; rfl
  have hmatch : s.status.cmpMatch ≠ true := fun hm => by simp [hs.matchIdle hm] at hbusy
  obtain ⟨-, hcode⟩ := e.code_bounds
  exact { hs with busyIffPending := rfl, doneIdle := fun _ => rfl, matchIdle := fun _ => rfl,
                  matchSucceeded := fun hm => absurd hm hmatch, errcodeLegal := hcode }

theorem complete {cw : Word} (hp : s.pend = some cw) (i : Instr) : (s.complete (commandExec i s)).Inv := by
  cases hr : commandExec i s with
  | error e => exact hs.raiseCmdError hp e
  | ok t => exact (commandExec_operandsFit hs.operandsFit hr).inv_succeed

theorem engineTurn {t : State} (ht : Machine.engineTurn s = .next t) : t.Inv := by
  obtain ⟨-, h⟩ | ⟨cw, i, hp, -, h⟩ | ⟨cw, e, hp, -, h⟩ := engineTurn_cases s <;>
    obtain rfl := Host.Outcome.next.inj (h.symm.trans ht)
  · exact hs
  · exact hs.complete hp i
  · exact hs.raiseCmdError hp _

end State.Inv

/-- Settles O57, by the cases of a step. -/
theorem everyStepKeepsTheInvariant : Obligations.EveryStepKeepsTheInvariant := by
  unfold Obligations.EveryStepKeepsTheInvariant
  intro s t hs ht
  obtain ⟨-, h⟩ | ⟨es, -, h⟩ | ⟨a, es, -, h⟩ | ⟨es, -, h⟩ := step_cases s <;> rw [h] at ht
  · exact hs.engineTurn ht
  · exact (hs.setEvents es).engineTurn ht
  · obtain rfl := Host.Outcome.next.inj ht
    exact (hs.setEvents es).handleAccess a
  · obtain rfl := Host.Outcome.next.inj ht
    exact (hs.setEvents es).resetBlock

end Sys2Proof.Machine
end

section
/-! PROOFS. When RES changes, and the idle engine's turn (spec/10_state.md R33, R40). -/

namespace Sys2Proof.Machine

/-- A command word is its four fields, one after the other (30_encoding.md R75). -/
theorem word_eq_fields (cw : Word) :
    cw = reservedHighField cw ++ nbField cw ++ reservedLowField cw ++ opField cw := by
  simp only [reservedHighField, nbField, reservedLowField, opField]
  rw [BitVec.extractLsb'_append_extractLsb'_eq_extractLsb' (by decide),
    BitVec.extractLsb'_append_extractLsb'_eq_extractLsb' (by decide),
    BitVec.extractLsb'_append_extractLsb'_eq_extractLsb' (by decide), BitVec.extractLsb'_eq_self]

theorem decodeOp_modexp {op : Nat} (h : decodeOp op = .ok .modexp) : op = 8 := by
  unfold decodeOp at h
  split at h <;> simp at h ⊢

/-- Word 8 is the only one that decodes to MODEXP (30_encoding.md R76). -/
theorem word_of_decode_modexp {cw : Word} (h : decode cw = .ok .modexp) : cw = 0x00000008 := by
  unfold decode at h
  split_ifs at h with hhigh hlow hop hnb
  · cases h
  · have hop8 : opField cw = 8 := BitVec.eq_of_toNat_eq (decodeOp_modexp h)
    rw [word_eq_fields cw, not_not.mp hhigh, not_not.mp hlow, not_not.mp hnb, hop8]
    rfl

/-- When the engine moves next, the step is its turn, with the engine event used up if there is one. -/
theorem step_of_engineNext {s : State} (h : s.engineNext) : step s = engineTurn (s.setEvents s.events.tail) := by
  obtain ⟨he, hs⟩ | ⟨es, he, hs⟩ | ⟨a, es, he, -⟩ | ⟨es, he, -⟩ := step_cases s
  · rw [hs, he, List.tail_nil, ← he]; rfl
  · rw [hs, he, List.tail_cons]
  · simp [State.engineNext, he] at h
  · simp [State.engineNext, he] at h

theorem engineTurn_idle {s : State} (hp : s.pend = none) : engineTurn s = .next s := by
  rw [engineTurn, State.fetch_eq, hp]

/-- Settles O10: the engine's turn with nothing pending gives back the state it was given. -/
theorem idleEngineTurnChangesNothing : Obligations.IdleEngineTurnChangesNothing := by
  unfold Obligations.IdleEngineTurnChangesNothing
  intro s hp hnext
  exact (step_of_engineNext hnext).trans (engineTurn_idle hp)

/-- Only a MODEXP that succeeds changes RES in the engine's turn. -/
theorem engineTurn_res {s t : State} (ht : engineTurn s = .next t) (hres : t.res ≠ s.res) :
    s.pend = some 0x00000008 ∧ t.status.errcode = 0 ∧ exec .modexp s = .next t := by
  obtain ⟨-, h⟩ | ⟨cw, i, hp, hd, h⟩ | ⟨_, _, -, -, h⟩ := engineTurn_cases s <;>
    obtain rfl := Host.Outcome.next.inj (h.symm.trans ht)
  · exact absurd rfl hres
  · obtain ⟨-, -, -, -, -, -, -, hother, -⟩ := commandsWriteOnlyTheirOutputs i s _ (exec_eq i s)
    obtain rfl : i = .modexp := not_not.mp fun hi => hres (hother hi)
    obtain rfl := word_of_decode_modexp hd
    refine ⟨hp, ?_, exec_eq .modexp s⟩
    cases hr : commandExec .modexp s with
    | error e => simp [hr] at hres
    | ok u => rfl
  · exact absurd rfl hres

@[simp] theorem State.storeInput_res (s : State) (r : Reg) (v : Word) : (s.storeInput r v).res = s.res := by
  cases r <;> rfl

@[simp] theorem State.readReg_res (s : State) (r : Reg) : (s.readReg r).2.res = s.res := by
  obtain ⟨-, -, h⟩ | ⟨-, h⟩ := s.readReg_cases r <;> simp [h]

/-- Only a soft reset changes RES in a write. -/
theorem State.writeReg_res {s : State} {r : Reg} {v : Word} (hres : (s.writeReg r v).res ≠ s.res) :
    r = .ctrl ∧ v.getLsbD 1 = true ∧ (s.writeReg r v).res = [] := by
  obtain h | h | ⟨hr, hv, h⟩ | h | ⟨-, -, h⟩ | ⟨-, h⟩ | ⟨-, h⟩ := s.writeReg_cases r v
  case inr.inr.inl => exact ⟨hr, hv, by rw [h]; rfl⟩
  all_goals simp [h] at hres

/-- Only a write of CTRL with bit 1 set changes RES in a host access. -/
theorem State.handleAccess_res {s : State} (hnw : s.rsaNw ≤ 1024) {a : Access}
    (hres : (s.handleAccess a).res ≠ s.res) :
    ∃ v, v.getLsbD 1 = true ∧ a = ⟨0x004, .bytes 4, .write v⟩ ∧ (s.handleAccess a).res = [] := by
  obtain ⟨-, h⟩ | ⟨r, -, -, h⟩ | ⟨r, v, hr, hk, h⟩ := s.handleAccess_cases a <;>
    simp only [h, State.respond_res, State.readReg_res, ne_eq, not_true_eq_false] at hres ⊢
  obtain ⟨rfl, hv, hnil⟩ := State.writeReg_res hres
  obtain ⟨hw, ha, -⟩ := (Access.target_eq_some hnw).mp hr
  obtain ⟨addr, width, kind⟩ := a
  obtain rfl : addr = 0x004 := ha
  obtain rfl : width = .bytes 4 := hw
  obtain rfl : kind = .write v := hk
  exact ⟨v, hv, rfl, hnil⟩

/-- Settles O58, by the cases of a step. -/
theorem onlyModexpOrResetChangesRes : Obligations.OnlyModexpOrResetChangesRes := by
  unfold Obligations.OnlyModexpOrResetChangesRes
  intro s t hnw ht hres
  have hengine (hnext : s.engineNext) := engineTurn_res ((step_of_engineNext hnext).symm.trans ht) hres
  obtain ⟨he, -⟩ | ⟨es, he, -⟩ | ⟨a, es, he, h⟩ | ⟨es, he, h⟩ := step_cases s
  · exact .inr (.inr ⟨.inl he, hengine (.inl he)⟩)
  · have hnext : s.engineNext := .inr (by rw [he]; rfl)
    exact .inr (.inr ⟨hnext, hengine hnext⟩)
  · obtain rfl := Host.Outcome.next.inj (h.symm.trans ht)
    obtain ⟨v, hv, rfl, hnil⟩ := State.handleAccess_res (s := s.setEvents es) hnw hres
    exact .inr (.inl ⟨v, es, hv, he, hnil⟩)
  · obtain rfl := Host.Outcome.next.inj (h.symm.trans ht)
    exact .inl ⟨es, he, rfl⟩

end Sys2Proof.Machine
end

section
/-! PROOFS. What host accesses do to the registers they reach: no aliases, EXP never read back, the writes of STATUS and
CTRL, and IRQ (spec/10_state.md R20, R22, R24, R31, R35). -/

namespace Sys2Proof.Machine

/-- Settles O42: every mapped register is found at its own offset. -/
theorem noRegisterAliasesAnother : Obligations.NoRegisterAliasesAnother := by
  unfold Obligations.NoRegisterAliasesAnother
  intro nw r r' hnw hr hr' hoff
  have h : some r = some r' := by rw [← regAtAligned_offset hnw hr, hoff, regAtAligned_offset hnw hr']
  exact Option.some.inj h

/-! ### EXP -/

theorem State.sameButExp_iff {s t : State} : s.sameButExp t ↔ t = s.setExp t.exp := by
  cases s
  cases t
  simp only [State.sameButExp, State.setExp, State.mk.injEq]
  tauto

/-- No register's word depends on EXP: EXP itself reads as 0 (10_state.md R31). -/
theorem Reg.value_setExp (s : State) (r : Reg) (m : Memory) : r.value (s.setExp m) = r.value s := by
  cases r <;> rfl

theorem State.readReg_setExp (s : State) (r : Reg) (m : Memory) :
    (s.setExp m).readReg r = ((s.readReg r).1, (s.readReg r).2.setExp m) := by
  simp only [State.readReg, State.setExp_status, State.setExp_draws, Reg.value_setExp]
  split <;> rfl

/-- A write leaves two states that differ only in EXP differing in nothing else. -/
theorem State.sameButExp_writeReg (s : State) (r : Reg) (v : Word) (m : Memory) :
    (s.writeReg r v).sameButExp ((s.setExp m).writeReg r v) := by
  cases r with
  | id | param | status | res => rfl
  | ctrl =>
    simp only [State.writeReg, State.ctrlWrite]
    split <;> rfl
  | cmd | h | lenLo | lenHi | msg | base | exp | mod =>
    cases hb : s.status.busy <;> simp only [State.writeReg, State.setExp_status, hb] <;> rfl

theorem State.sameButExp_handleAccess (s : State) (a : Access) (m : Memory) :
    (s.handleAccess a).sameButExp ((s.setExp m).handleAccess a) := by
  simp only [State.handleAccess, State.setExp_rsaNw]
  split
  · rfl
  · split
    · rw [State.readReg_setExp]; rfl
    · exact congrArg (State.respond · .written) (State.sameButExp_writeReg ..)

/-- States that differ only in EXP have given the same answers and drive the same IRQ. -/
theorem State.sameButExp.observed {s t : State} (h : s.sameButExp t) : s.responses = t.responses ∧ s.irq = t.irq := by
  rw [State.sameButExp_iff.mp h]
  exact ⟨rfl, rfl⟩

/-- Settles O59: no access lets EXP through to anything but EXP. -/
theorem expIsNeverReadBack : Obligations.ExpIsNeverReadBack := by
  unfold Obligations.ExpIsNeverReadBack
  intro s t a hst _
  rw [State.sameButExp_iff.mp hst]
  have h := s.sameButExp_handleAccess a t.exp
  exact ⟨h, h.observed⟩

/-! ### STATUS, CTRL and IRQ -/

/-- A write of STATUS as a host access: offset 0x008 is STATUS, whatever the operand width (20_memory.md R51). -/
theorem State.handleAccess_statusWrite (s : State) (v : Word) :
    s.handleAccess ⟨0x008, .bytes 4, .write v⟩ = (s.setStatus (s.status.clear v)).respond .written :=
  s.handleAccess_page_write (r := .status) (fun _ => rfl) v

theorem State.handleAccess_ctrlWrite (s : State) (v : Word) :
    s.handleAccess ⟨0x004, .bytes 4, .write v⟩ = (s.ctrlWrite v).respond .written :=
  s.handleAccess_page_write (r := .ctrl) (fun _ => rfl) v

theorem State.handleAccess_cmdWrite_idle {s : State} (hb : s.status.busy = false) (cw : Word) :
    s.handleAccess ⟨0x00C, .bytes 4, .write cw⟩ = (s.accept cw).respond .written := by
  rw [show (0x00C : Nat) = Reg.offset .cmd from rfl, s.handleAccess_page_write (fun _ => rfl), State.writeReg, hb]
  rfl

/-- W1C bit by bit: a 1 clears the flag, a 0 leaves it (10_state.md R24). -/
theorem Status.clear_eq (f : Status) (v : Word) :
    f.clear v = { f with
      done := if v.getLsbD 1 then false else f.done
      err := if v.getLsbD 2 then false else f.err
      ovr := if v.getLsbD 3 then false else f.ovr } := by
  rw [Status.clear]
  cases v.getLsbD 1 <;> cases v.getLsbD 2 <;> cases v.getLsbD 3 <;> simp

/-- Settles O46: both writes are W1C, which the flags follow bit by bit. -/
theorem statusWriteClearsByOnes : Obligations.StatusWriteClearsByOnes := by
  unfold Obligations.StatusWriteClearsByOnes
  intro s v
  simp only [State.handleAccess_statusWrite, Status.clear_eq]
  exact ⟨rfl, rfl⟩

/-- Settles O49: bit 1 decides between a new IE and the reset of the block. -/
theorem ctrlWriteSetsIeOrResets : Obligations.CtrlWriteSetsIeOrResets := by
  unfold Obligations.CtrlWriteSetsIeOrResets
  intro s v
  rw [State.handleAccess_ctrlWrite, State.ctrlWrite]
  constructor <;> intro hv <;> rw [hv] <;> rfl

/-- Every completion sets DONE and keeps IE, so IRQ becomes IE. -/
theorem State.complete_irq (i : Instr) (s : State) : (s.complete (commandExec i s)).irq = s.ie := by
  obtain ⟨-, hdone, -⟩ := s.complete_idle (commandExec i s)
  obtain ⟨-, -, -, hie, -⟩ := commandsWriteOnlyTheirOutputs i s _ (exec_eq i s)
  rw [State.irq_of_done hdone, hie]

/-- Settles O55: DONE is 0 after an acceptance and after its W1C, and 1 after every completion. -/
theorem irqFollowsIeAndDone : Obligations.IrqFollowsIeAndDone := by
  unfold Obligations.IrqFollowsIeAndDone
  intro s
  refine ⟨rfl, fun hie => by rw [State.irq, hie, Bool.false_and], fun cw hb => ?_, fun i t ht => ?_,
    fun cw e t hd ht => ?_, ?_⟩
  · rw [State.handleAccess_cmdWrite_idle hb]
    exact State.irq_of_not_done rfl
  · rw [exec_next ht, State.complete_irq]
  · rw [runWord, hd] at ht
    obtain rfl := Host.Outcome.next.inj ht
    exact State.irq_of_done rfl
  · rw [State.handleAccess_statusWrite]
    exact State.irq_of_not_done (Bool.and_false _)

end Sys2Proof.Machine
end

section
/-! PROOFS. The datapath tick by tick (spec/10_state.md R37, R38): the SHA-1 rounds of each block in turn, and the
sequencer's accumulator, which with a correct multiplier is a power of the base (41_modexp.md R131). -/

namespace Sys2Proof.Machine

/-! ### The SHA-1 datapath -/

/-- The datapath gives `r` at tick `k`, and until then it is under way with its round counter at most 79 and its block
index at most 1 (10_state.md R37). -/
def ShaDatapath.Finishes (d : ShaDatapath) (k : Nat) (r : Vector Word 5) : Prop :=
  d.run k = .inr r ∧ ∀ j < k, ∃ d', d.run j = .inl d' ∧ d'.t ≤ 79 ∧ d'.block ≤ 1

/-- A tick that gives the result. -/
theorem ShaDatapath.finishes_one {d : ShaDatapath} {r : Vector Word 5} (ht : d.t ≤ 79) (hb : d.block ≤ 1)
    (h : d.tick = .inr r) : d.Finishes 1 r := by
  refine ⟨by rw [ShaDatapath.run, h], fun j hj => ⟨d, ?_, ht, hb⟩⟩
  obtain rfl : j = 0 := by omega
  rfl

/-- A tick that goes on. -/
theorem ShaDatapath.finishes_succ {d d' : ShaDatapath} {k : Nat} {r : Vector Word 5} (ht : d.t ≤ 79)
    (hb : d.block ≤ 1) (h : d.tick = .inl d') (hd' : d'.Finishes k r) : d.Finishes (k + 1) r := by
  obtain ⟨hr, hbefore⟩ := hd'
  have hrun (n : Nat) : d.run (n + 1) = d'.run n := by rw [ShaDatapath.run, h]
  refine ⟨(hrun k).trans hr, fun j hj => ?_⟩
  cases j with
  | zero => exact ⟨d, rfl, ht, hb⟩
  | succ j =>
    rw [hrun]
    exact hbefore j (by omega)

section Block

variable (h : Vector Word 5) (ps : List (Vector Word 16)) (b : Nat)

/-- Block `b` of the blocks `ps`, as the datapath loads it. -/
def blockAt : Vector Word 16 := ps.getD b (Vector.replicate 16 0)

/-- The datapath before round `t` of block `b` (40_sha1.md R100). -/
def ShaDatapath.beforeRound (t : Nat) : ShaDatapath :=
  { ShaDatapath.load h ps b with regs := workingBefore h (blockAt ps b) t, t := t }

/-- A round of the datapath is a round of the compression. -/
theorem ShaDatapath.roundResult_beforeRound {t : Nat} (ht : t < 80) :
    (ShaDatapath.beforeRound h ps b t).roundResult = workingBefore h (blockAt ps b) (t + 1) :=
  (workingBefore_succ h (blockAt ps b) ht).symm

theorem ShaDatapath.tick_beforeRound {t : Nat} (ht : t < 79) :
    (ShaDatapath.beforeRound h ps b t).tick = .inl (ShaDatapath.beforeRound h ps b (t + 1)) := by
  rw [ShaDatapath.tick, roundResult_beforeRound h ps b (by omega)]
  exact if_pos ht

/-- The tick of round 79 compresses the block, and either begins the next one or gives the result (40_sha1.md R101). -/
theorem ShaDatapath.tick_lastRound :
    (ShaDatapath.beforeRound h ps b 79).tick =
      if b + 1 < ps.length then .inl (ShaDatapath.load (compress h (blockAt ps b)) ps (b + 1))
      else .inr (compress h (blockAt ps b)) := by
  rw [ShaDatapath.tick, roundResult_beforeRound h ps b (by omega), compress_eq_feedForward]
  exact if_neg (Nat.lt_irrefl 79)

variable {h ps b}

/-- What the datapath does from round 79 on it does from any earlier round, as many ticks later. -/
theorem ShaDatapath.finishes_beforeRound (hb : b ≤ 1) {k : Nat} {r : Vector Word 5}
    (hlast : (ShaDatapath.beforeRound h ps b 79).Finishes k r) {i : Nat} (hi : i ≤ 79) :
    (ShaDatapath.beforeRound h ps b (79 - i)).Finishes (k + i) r := by
  induction i with
  | zero => exact hlast
  | succ i ih =>
    refine finishes_succ (Nat.sub_le 79 _) hb (tick_beforeRound h ps b (by omega)) ?_
    rw [show 79 - (i + 1) + 1 = 79 - i by omega]
    exact ih (by omega)

theorem ShaDatapath.finishes_load (hb : b ≤ 1) {k : Nat} {r : Vector Word 5}
    (hlast : (ShaDatapath.beforeRound h ps b 79).Finishes k r) : (ShaDatapath.load h ps b).Finishes (k + 79) r :=
  finishes_beforeRound hb hlast le_rfl

end Block

theorem drop_eq_blockAt_cons {ps : List (Vector Word 16)} {b : Nat} (hb : b < ps.length) :
    ps.drop b = blockAt ps b :: ps.drop (b + 1) := by
  rw [blockAt, List.getD_eq_getElem _ _ hb, List.getElem_cons_drop]

/-- From block `b` on, the datapath gives the chaining value after the blocks still to come, 80 ticks for each. -/
theorem ShaDatapath.finishes_blocks {ps : List (Vector Word 16)} (hlen : ps.length ≤ 2) (n : Nat) (h : Vector Word 5)
    {b : Nat} (hb : b + (n + 1) = ps.length) :
    (ShaDatapath.load h ps b).Finishes (80 * (n + 1)) ((ps.drop b).foldl compress h) := by
  have hb1 : b ≤ 1 := by omega
  have htick := tick_lastRound h ps b
  rw [drop_eq_blockAt_cons (by omega), List.foldl_cons]
  induction n generalizing h b with
  | zero =>
    rw [if_neg (by omega)] at htick
    rw [List.drop_of_length_le (by omega), List.foldl_nil]
    exact finishes_load hb1 (finishes_one le_rfl hb1 htick)
  | succ n ih =>
    rw [if_pos (by omega)] at htick
    have hrest := ih (compress h (blockAt ps b)) (b := b + 1) (by omega) (by omega) (tick_lastRound ..)
    rw [← List.foldl_cons, ← drop_eq_blockAt_cons (by omega)] at hrest
    exact finishes_load hb1 (finishes_succ le_rfl hb1 htick hrest)

theorem length_blocks_finalBytes (msg : Vector Word 16) (nb l : Nat) :
    (blocks (finalBytes msg nb l)).length = finalBlockCount nb := by
  simp [blocks, finalBytes]

theorem finalBlockCount_bounds (nb : Nat) : 1 ≤ finalBlockCount nb ∧ finalBlockCount nb ≤ 2 := by
  unfold finalBlockCount
  split <;> decide

/-- What a SHA command writes to H is the chaining value after the blocks its datapath is loaded with, of which there are
one or two. -/
theorem shaStart_blocks {i : Instr} {s t : State} {d : ShaDatapath} (hd : shaStart i s = some d)
    (ht : commandExec i s = .ok t) :
    ∃ ps, d = ShaDatapath.load s.h ps 0 ∧ 1 ≤ ps.length ∧ ps.length ≤ 2 ∧ t.h = ps.foldl compress s.h := by
  cases i with
  | shaInit | modexp | digestToBase | cmpDigest => cases hd
  | shaBlock =>
    obtain rfl := Option.some.inj hd
    simp only [commandExec, shaBlockExec] at ht
    split_ifs at ht
    obtain rfl := Except.ok.inj ht
    exact ⟨[s.msg], rfl, le_rfl, Nat.le_succ 1, rfl⟩
  | shaCompress =>
    obtain rfl := Option.some.inj hd
    obtain rfl := Except.ok.inj ht
    exact ⟨[s.msg], rfl, le_rfl, Nat.le_succ 1, rfl⟩
  | shaFinal nb =>
    obtain rfl := Option.some.inj hd
    simp only [commandExec, shaFinalExec] at ht
    split_ifs at ht
    obtain rfl := Except.ok.inj ht
    have hcount := finalBlockCount_bounds nb
    refine ⟨_, rfl, ?_, ?_, List.foldl_map.symm⟩ <;> rw [List.length_map, length_blocks_finalBytes] <;> omega

/-- A command that completes with code 0 made its writes. -/
theorem commandExec_of_errcode {i : Instr} {s : State} (h : (s.complete (commandExec i s)).status.errcode = 0) :
    ∃ t, commandExec i s = .ok t := by
  cases hr : commandExec i s with
  | error e =>
    rw [hr] at h
    exact absurd h e.code_bounds.1
  | ok t => exact ⟨t, rfl⟩

/-- The datapath of a SHA command that completes with code 0 gives the command's H within 160 ticks (40_sha1.md R107 to
R109). -/
theorem shaStart_finishes {i : Instr} {s t : State} {d : ShaDatapath} (hd : shaStart i s = some d)
    (ht : exec i s = .next t) (h0 : t.status.errcode = 0) : ∃ k ≤ 160, d.Finishes k t.h := by
  obtain rfl := exec_next ht
  obtain ⟨u, hu⟩ := commandExec_of_errcode h0
  obtain ⟨ps, rfl, hpos, hlen, hh⟩ := shaStart_blocks hd hu
  refine ⟨80 * (ps.length - 1 + 1), by omega, ?_⟩
  rw [hu, State.complete_ok, State.succeed_h, hh]
  exact ShaDatapath.finishes_blocks hlen (ps.length - 1) s.h (b := 0) (by omega)

/-! ### The sequencer's datapath -/

section Sequencer

variable (mm : Nat → Nat → Nat → Nat) (nw b e n : Nat)

theorem ModexpDatapath.tick_accumulator {i : Nat} (hi : i < bitlen e) :
    ModexpDatapath.tick mm nw b e n ⟨accumulator mm b e n (i + 1), i + 1⟩ = .inl ⟨accumulator mm b e n i, i⟩ := by
  rw [accumulator_of_lt mm b e n hi]
  rfl

/-- The sequencer with `i` exponent bits to come has `i - j` of them to come after `j` ticks. -/
theorem ModexpDatapath.run_accumulator {i j : Nat} (hi : i ≤ bitlen e) (hj : j ≤ i) :
    ModexpDatapath.run mm nw b e n j ⟨accumulator mm b e n i, i⟩ =
      .inl ⟨accumulator mm b e n (i - j), i - j⟩ := by
  induction j generalizing i with
  | zero => rfl
  | succ j ih =>
    obtain ⟨i, rfl⟩ : ∃ i', i = i' + 1 := ⟨i - 1, by omega⟩
    rw [ModexpDatapath.run, tick_accumulator mm nw b e n hi, Nat.add_sub_add_right]
    exact ih (by omega) (by omega)

/-- One tick for each exponent bit to come, and one more, give the loop's end value cut to the operand's words. -/
theorem ModexpDatapath.run_result {i : Nat} (hi : i ≤ bitlen e) :
    ModexpDatapath.run mm nw b e n (i + 1) ⟨accumulator mm b e n i, i⟩ =
      .inr (accumulator mm b e n 0 % 2 ^ (32 * nw)) := by
  induction i with
  | zero => rfl
  | succ i ih =>
    rw [ModexpDatapath.run, tick_accumulator mm nw b e n hi]
    exact ih (by omega)

theorem ModexpDatapath.start_eq : ModexpDatapath.start e n = ⟨accumulator mm b e n (bitlen e), bitlen e⟩ := by
  rw [accumulator_bitlen, ModexpDatapath.start]

variable {mm b n}

/-- One turn of the loop with a correct multiplier: the exponent's part above bit `i + 1` becomes that above bit `i`. -/
theorem bitStep_pow (hmm : MMCorrect mm) (hn : n % 2 = 1) (hb : b < n) (i : Nat) :
    bitStep mm b e n i (b ^ (e / 2 ^ (i + 1)) % n) = b ^ (e / 2 ^ i) % n := by
  have hlt (x : Nat) : x % n < n := Nat.mod_lt x (by omega)
  have hhalf : e / 2 ^ (i + 1) = e / 2 ^ i / 2 := by rw [pow_succ, Nat.div_div_eq_div_mul]
  have hsquare (q : Nat) : mm (b ^ q % n) (b ^ q % n) n = b ^ (2 * q) % n := by
    rw [hmm _ _ _ hn (hlt _) (hlt _), ← Nat.mul_mod, ← pow_add, two_mul]
  rw [bitStep, hhalf, hsquare, Nat.testBit_eq_decide_div_mod_eq]
  generalize e / 2 ^ i = x
  obtain hx | hx := Nat.mod_two_eq_zero_or_one x
  · rw [if_neg (by simp [hx]), show 2 * (x / 2) = x by omega]
  · rw [if_pos (by simp [hx]), hmm _ _ _ hn (hlt _) hb, Nat.mod_mul_mod, ← pow_succ,
      show 2 * (x / 2) + 1 = x by omega]

/-- With a correct multiplier the accumulator is the power of the base by the exponent bits taken so far (41_modexp.md
R131). -/
theorem accumulator_eq_pow (hmm : MMCorrect mm) (hn : n % 2 = 1) (hb : b < n) {i : Nat} (hi : i ≤ bitlen e) :
    accumulator mm b e n i = b ^ (e / 2 ^ i) % n := by
  induction hi using Nat.decreasingInduction with
  | self => rw [accumulator_bitlen, Nat.div_eq_of_lt (lt_two_pow_bitlen e), pow_zero]
  | of_succ i hi ih => rw [accumulator_of_lt mm b e n hi, ih, bitStep_pow e hmm hn hb]

end Sequencer

/-- Settles O36: the SHA datapath by blocks of 80 rounds, the sequencer's by exponent bits. -/
theorem datapathRefinesTheCommands : Obligations.DatapathRefinesTheCommands := by
  unfold Obligations.DatapathRefinesTheCommands
  refine ⟨fun i s t d _ hd ht h0 => shaStart_finishes hd ht h0, fun mm nw b e n => ?_⟩
  rw [ModexpDatapath.start_eq mm b e n, modExpSeq_eq_accumulator]
  refine ⟨ModexpDatapath.run_result mm nw b e n le_rfl, fun j hj =>
    ⟨_, ModexpDatapath.run_accumulator mm nw b e n le_rfl hj, rfl, fun hmm hn hb => ?_⟩⟩
  exact accumulator_eq_pow e hmm hn hb (Nat.sub_le _ _)

end Sys2Proof.Machine
end

section
/-! PROOFS. Operand memories as integers (spec/20_memory.md R52, R60): the value of a canonical memory is the sum of its
words, its bits are theirs, and a memory is determined by them; a byte block loads as its big-endian integer. -/

namespace Sys2Proof.Machine

/-! ### Sums of words -/

/-- Words 0 to `n - 1` of `f` as one integer, word 0 least significant (20_memory.md R60). -/
def wordSum (f : Nat → Word) (n : Nat) : Nat := ∑ i ∈ Finset.range n, (f i).toNat * 2 ^ (32 * i)

theorem wordSum_succ (f : Nat → Word) (n : Nat) :
    wordSum f (n + 1) = 2 ^ (32 * n) * (f n).toNat + wordSum f n := by
  rw [wordSum, Finset.sum_range_succ, Nat.add_comm, Nat.mul_comm, wordSum]

theorem wordSum_lt (f : Nat → Word) (n : Nat) : wordSum f n < 2 ^ (32 * n) := by
  induction n with
  | zero => exact Nat.one_pos
  | succ n ih =>
    calc wordSum f (n + 1)
        = 2 ^ (32 * n) * (f n).toNat + wordSum f n := wordSum_succ f n
      _ < 2 ^ (32 * n) * (f n).toNat + 2 ^ (32 * n) := by omega
      _ = 2 ^ (32 * n) * ((f n).toNat + 1) := by ring
      _ ≤ 2 ^ (32 * n) * 2 ^ 32 := Nat.mul_le_mul_left _ (f n).isLt
      _ = 2 ^ (32 * (n + 1)) := by rw [← pow_add, Nat.mul_succ]

/-- Word `i` holds the bits from 32·i on. -/
theorem testBit_wordSum (f : Nat → Word) (n i : Nat) {j : Nat} (hj : j < 32) :
    (wordSum f n).testBit (32 * i + j) = (decide (i < n) && (f i).getLsbD j) := by
  induction n with
  | zero => simp [wordSum]
  | succ n ih =>
    rw [wordSum_succ, Nat.testBit_two_pow_mul_add _ (wordSum_lt f n)]
    obtain hi | rfl | hi := Nat.lt_trichotomy i n
    · rw [if_pos (by omega), ih, decide_eq_true hi, decide_eq_true (by omega)]
    · rw [if_neg (by omega), Nat.add_sub_cancel_left, decide_eq_true (Nat.lt_succ_self i), Bool.true_and]
      rfl
    · rw [if_neg (by omega), decide_eq_false (by omega), Bool.false_and]
      exact (f n).getLsbD_of_ge _ (by omega)

/-! ### The value of a memory -/

/-- From the width on nothing is listed. -/
theorem Memory.read_of_ge {nw : Nat} {m : Memory} (h : m.below nw = true) {i : Nat} (hi : nw ≤ i) : m.read i = 0 := by
  induction m with
  | nil => rfl
  | cons e m ih =>
    obtain ⟨j, w⟩ := e
    obtain ⟨hj, hm⟩ := Memory.below_cons.mp h
    rw [Memory.read_cons, if_neg (by omega), ih hm]

/-- The value of a canonical memory is the sum of its words; an entry counts once, at its index. -/
theorem Memory.val_eq_wordSum {lo nw : Nat} {m : Memory} (hwf : Memory.wfFrom lo m = true)
    (hbelow : m.below nw = true) : m.val = wordSum m.read nw := by
  induction m generalizing lo with
  | nil => simp [wordSum]
  | cons e m ih =>
    obtain ⟨i, v⟩ := e
    obtain ⟨-, -, hm⟩ := Memory.wfFrom_cons.mp hwf
    obtain ⟨hi, hb⟩ := Memory.below_cons.mp hbelow
    have hword (k : Nat) : (Memory.read ((i, v) :: m) k).toNat * 2 ^ (32 * k) =
        (if k = i then v.toNat * 2 ^ (32 * i) else 0) + (Memory.read m k).toNat * 2 ^ (32 * k) := by
      rw [Memory.read_cons]
      split
      · next hk => subst hk; simp [Memory.read_of_lt hm]
      · simp
    rw [Memory.val_cons, ih hm hb, wordSum, wordSum, Finset.sum_congr rfl fun k _ => hword k, Finset.sum_add_distrib,
      Finset.sum_ite_eq', if_pos (Finset.mem_range.mpr hi)]

theorem Memory.fits.val_eq_wordSum {nw : Nat} {m : Memory} (h : m.fits nw) : m.val = wordSum m.read nw :=
  Memory.val_eq_wordSum h.1 h.2

theorem Memory.fits.testBit_val {nw : Nat} {m : Memory} (h : m.fits nw) (i : Nat) {j : Nat} (hj : j < 32) :
    m.val.testBit (32 * i + j) = (m.read i).getLsbD j := by
  rw [h.val_eq_wordSum, testBit_wordSum _ _ _ hj]
  by_cases hi : i < nw
  · rw [decide_eq_true hi, Bool.true_and]
  · rw [Memory.read_of_ge h.2 (Nat.le_of_not_lt hi), decide_eq_false hi, Bool.false_and]
    exact BitVec.getLsbD_zero.symm

/-- Settles O37: the value as the sum of the words, and the bits of such a sum. -/
theorem operandValueIsTheSumOfItsWords : Obligations.OperandValueIsTheSumOfItsWords := by
  unfold Obligations.OperandValueIsTheSumOfItsWords
  exact fun nw m h =>
    ⟨h.val_eq_wordSum, h.val_eq_wordSum ▸ wordSum_lt m.read nw, fun i _ hj => h.testBit_val i hj⟩

/-! ### One memory for each contents -/

/-- A word below every index of `m` that is not 0 tells a memory that holds it from `m`. -/
theorem Memory.not_lt_of_read_eq {i i' : Nat} {v v' : Word} {m m' : Memory} (hv : v ≠ 0)
    (h' : Memory.wfFrom i' ((i', v') :: m') = true)
    (hread : Memory.read ((i, v) :: m) i = Memory.read ((i', v') :: m') i) : ¬ i < i' := by
  intro hi
  rw [Memory.read_cons, if_pos rfl, Memory.read_of_lt h' hi] at hread
  exact hv hread

/-- Canonical memories with the same words are equal. -/
theorem Memory.eq_of_read_eq {lo lo' : Nat} {m m' : Memory} (h : Memory.wfFrom lo m = true)
    (h' : Memory.wfFrom lo' m' = true) (hread : ∀ i, m.read i = m'.read i) : m = m' := by
  induction m generalizing lo lo' m' with
  | nil =>
    cases m' with
    | nil => rfl
    | cons e' m' =>
      obtain ⟨i', v'⟩ := e'
      obtain ⟨-, hv', -⟩ := Memory.wfFrom_cons.mp h'
      have h0 := hread i'
      rw [Memory.read_nil, Memory.read_cons, if_pos rfl] at h0
      exact absurd h0.symm hv'
  | cons e m ih =>
    obtain ⟨i, v⟩ := e
    obtain ⟨-, hv, hm⟩ := Memory.wfFrom_cons.mp h
    cases m' with
    | nil =>
      have h0 := hread i
      rw [Memory.read_nil, Memory.read_cons, if_pos rfl] at h0
      exact absurd h0 hv
    | cons e' m' =>
      obtain ⟨i', v'⟩ := e'
      obtain ⟨-, hv', hm'⟩ := Memory.wfFrom_cons.mp h'
      obtain rfl : i = i' := by
        have hle := Memory.not_lt_of_read_eq hv (Memory.wfFrom_cons.mpr ⟨le_rfl, hv', hm'⟩) (hread i)
        have hge := Memory.not_lt_of_read_eq hv' (Memory.wfFrom_cons.mpr ⟨le_rfl, hv, hm⟩) (hread i').symm
        omega
      obtain rfl : v = v' := by simpa [Memory.read_cons] using hread i
      have htail (k : Nat) : Memory.read m k = Memory.read m' k := by
        by_cases hk : k = i
        · rw [hk, Memory.read_of_lt hm (Nat.lt_succ_self i), Memory.read_of_lt hm' (Nat.lt_succ_self i)]
        · simpa [Memory.read_cons, hk] using hread k
      rw [ih hm hm' htail]

theorem Memory.fits.eq_of_read_eq {nw : Nat} {m m' : Memory} (h : m.fits nw) (h' : m'.fits nw)
    (hread : ∀ i < nw, m.read i = m'.read i) : m = m' := by
  refine Memory.eq_of_read_eq h.1 h'.1 fun i => ?_
  by_cases hi : i < nw
  · exact hread i hi
  · rw [Memory.read_of_ge h.2 (Nat.le_of_not_lt hi), Memory.read_of_ge h'.2 (Nat.le_of_not_lt hi)]

/-- Word `i` of a memory's value is its word `i`. -/
theorem Memory.fits.word_val {nw : Nat} {m : Memory} (h : m.fits nw) (i : Nat) :
    BitVec.ofNat 32 (m.val / 2 ^ (32 * i)) = m.read i := by
  ext j hj
  rw [← BitVec.getLsbD_eq_getElem, ← BitVec.getLsbD_eq_getElem, BitVec.getLsbD_ofNat, decide_eq_true hj, Bool.true_and,
    Nat.testBit_div_two_pow, Nat.add_comm, h.testBit_val i hj]

/-- Settles O38: a canonical memory is determined by its words, and its words are those of its value. -/
theorem equalWordsAreEqualMemories : Obligations.EqualWordsAreEqualMemories := by
  unfold Obligations.EqualWordsAreEqualMemories
  refine fun nw m m' h h' => ⟨h.eq_of_read_eq h', (Memory.fits_ofNat nw _).eq_of_read_eq h fun i hi => ?_⟩
  rw [Memory.read_ofNat, if_pos hi, h.word_val i]

/-! ### Byte blocks -/

theorem bytesValue_concat (b : List Byte) (x : Byte) : bytesValue (b ++ [x]) = 2 ^ 8 * bytesValue b + x.toNat := by
  rw [bytesValue, List.foldl_concat]
  rfl

theorem byteFromLast_concat_zero (b : List Byte) (x : Byte) : byteFromLast (b ++ [x]) 0 = x := by
  simp [byteFromLast]

theorem byteFromLast_concat_succ (b : List Byte) (x : Byte) (j : Nat) :
    byteFromLast (b ++ [x]) (j + 1) = byteFromLast b j := by
  simp only [byteFromLast, List.length_append, List.length_singleton, Nat.add_lt_add_iff_right]
  split
  · rw [show b.length + 1 - 1 - (j + 1) = b.length - 1 - j by omega, List.getD_append _ _ _ _ (by omega)]
  · rfl

theorem bytesValue_lt (b : List Byte) : bytesValue b < 2 ^ (8 * b.length) := by
  induction b using List.reverseRecOn with
  | nil => exact Nat.one_pos
  | append_singleton b x ih =>
    rw [bytesValue_concat, List.length_append, List.length_singleton, Nat.mul_succ, pow_add]
    have hx := x.isLt
    omega

/-- Byte `j` from the last holds the bits from 8·j on. -/
theorem testBit_bytesValue (b : List Byte) (j : Nat) {k : Nat} (hk : k < 8) :
    (bytesValue b).testBit (8 * j + k) = (byteFromLast b j).getLsbD k := by
  induction b using List.reverseRecOn generalizing j with
  | nil => simp [bytesValue, byteFromLast]
  | append_singleton b x ih =>
    rw [bytesValue_concat, Nat.testBit_two_pow_mul_add _ x.isLt]
    cases j with
    | zero => rw [if_pos (by omega), byteFromLast_concat_zero, Nat.mul_zero, Nat.zero_add]; rfl
    | succ j => rw [if_neg (by omega), byteFromLast_concat_succ, ← ih]; congr 1; omega

/-- A byte put below `x` moves its bits up by 8. -/
theorem append_byte_getLsbD_add {n : Nat} (x : BitVec n) (y : Byte) (k : Nat) :
    (x ++ y).getLsbD (8 + k) = x.getLsbD k := by
  simp [BitVec.getLsbD_append]

/-- Bit 8·j + k of an operand word is bit k of its byte j. -/
theorem operandWord_getLsbD (b : List Byte) (i : Nat) {j k : Nat} (hj : j < 4) (hk : k < 8) :
    (operandWord b i).getLsbD (8 * j + k) = (byteFromLast b (4 * i + j)).getLsbD k := by
  have hlow {n : Nat} (x : BitVec n) (y : Byte) : (x ++ y).getLsbD k = y.getLsbD k := by
    rw [BitVec.getLsbD_append, if_pos hk]
  obtain rfl | rfl | rfl | rfl : j = 0 ∨ j = 1 ∨ j = 2 ∨ j = 3 := by omega
  · rw [Nat.mul_zero, Nat.zero_add, operandWord, hlow, Nat.add_zero]
  · rw [operandWord, append_byte_getLsbD_add, hlow]
  · rw [show 8 * 2 + k = 8 + (8 + k) by omega, operandWord]
    simp only [append_byte_getLsbD_add, hlow]
  · rw [show 8 * 3 + k = 8 + (8 + (8 + k)) by omega, operandWord]
    simp only [append_byte_getLsbD_add]

/-- The word that software writes to X[i] is word `i` of the block's integer (20_memory.md R60). -/
theorem operandWord_eq (b : List Byte) (i : Nat) : operandWord b i = BitVec.ofNat 32 (bytesValue b / 2 ^ (32 * i)) := by
  ext n hn
  have hj : n / 8 < 4 := by omega
  have hk : n % 8 < 8 := Nat.mod_lt n (by omega)
  have hbit : 8 * (n / 8) + n % 8 = n := Nat.div_add_mod n 8
  have hpos : 8 * (4 * i + n / 8) + n % 8 = n + 32 * i := by omega
  have hword := operandWord_getLsbD b i hj hk
  rw [hbit] at hword
  rw [← BitVec.getLsbD_eq_getElem, ← BitVec.getLsbD_eq_getElem, hword, ← testBit_bytesValue b _ hk, hpos,
    BitVec.getLsbD_ofNat, decide_eq_true hn, Bool.true_and, Nat.testBit_div_two_pow]

/-- Settles O39: the writes are the same word for word. -/
theorem byteBlocksLoadAsTheirIntegers : Obligations.ByteBlocksLoadAsTheirIntegers := by
  unfold Obligations.ByteBlocksLoadAsTheirIntegers
  intro nw b mk hlen
  refine ⟨?_, (bytesValue_lt b).trans_le (Nat.pow_le_pow_right (by decide) (by omega))⟩
  simp only [ldopBytes, ldop, operandWord_eq]

end Sys2Proof.Machine
end

section
/-! PROOFS. What host accesses answer and what they change: reads, refused accesses, writes of input words, dropped,
ignored and repeated writes (spec/20_memory.md R51 to R57; 60_exceptions.md R149, R150). -/

namespace Sys2Proof.Machine

/-! ### The words registers read as -/

theorem State.ctrlWord_eq (s : State) : s.ctrlWord = if s.ie then 1 else 0 := by
  rw [State.ctrlWord]
  cases s.ie <;> rfl

/-- STATUS as a sum of its fields at their bit positions (10_state.md R23). -/
theorem Status.word_eq_ofNat (f : Status) :
    f.word = BitVec.ofNat 32 (f.busy.toNat + 2 * f.done.toNat + 4 * f.err.toNat + 8 * f.ovr.toNat
      + 16 * f.cmpMatch.toNat + 256 * f.errcode.toNat) := by
  obtain ⟨busy, done, err, ovr, cmpMatch, errcode⟩ := f
  revert busy done err ovr cmpMatch errcode
  decide

/-- Every admitted operand width fits PARAM's 16 bits (10_state.md R26). -/
theorem State.paramWord_eq {s : State} (hnw : s.rsaNw ≤ 1024) : s.paramWord = BitVec.ofNat 32 s.rsaNw := by
  apply BitVec.eq_of_toNat_eq
  simp only [State.paramWord, BitVec.toNat_setWidth, BitVec.toNat_ofNat]
  omega

theorem extractLsb'_zero_eq_ofNat (len : BitVec 64) : len.extractLsb' 0 32 = BitVec.ofNat 32 len.toNat := by
  apply BitVec.eq_of_toNat_eq
  rw [BitVec.extractLsb'_toNat, BitVec.toNat_ofNat, Nat.shiftRight_zero]

theorem extractLsb'_half_eq_ofNat (len : BitVec 64) :
    len.extractLsb' 32 32 = BitVec.ofNat 32 (len.toNat / 2 ^ 32) := by
  apply BitVec.eq_of_toNat_eq
  rw [BitVec.extractLsb'_toNat, BitVec.toNat_ofNat, Nat.shiftRight_eq_div_pow]

/-! ### Reads -/

/-- A read of a register that the engine does not own at the moment answers its word. -/
theorem State.handleAccess_read_value {s : State} (hnw : s.rsaNw ≤ 1024) {r : Reg} (hr : r.mapped s.rsaNw = true)
    (hfree : s.status.busy = false ∨ r.engineOwned = false) {v : Word} (hv : r.value s = v) :
    s.handleAccess ⟨r.offset, .bytes 4, .read⟩ = s.respond (.data v) := by
  have hread : s.readReg r = (r.value s, s) := if_neg (by obtain h | h := hfree <;> simp [h])
  rw [State.handleAccess_read s hnw hr, hread, hv]

/-- A read of an engine-owned register while BUSY = 1 answers a drawn value (20_memory.md R55). -/
theorem State.handleAccess_read_drawn {s : State} (hnw : s.rsaNw ≤ 1024) {r : Reg} (hr : r.mapped s.rsaNw = true)
    (hb : s.status.busy = true) (howned : r.engineOwned = true) :
    s.handleAccess ⟨r.offset, .bytes 4, .read⟩ =
      { s with responses := .data (Config.draw s.draws) :: s.responses, draws := s.draws + 1 } := by
  have hread : s.readReg r = (Config.draw s.draws, s.drawn) := if_pos (by rw [hb, howned]; rfl)
  rw [State.handleAccess_read s hnw hr, hread]
  rfl

/-- Settles O40, register by register. -/
theorem readsReturnWhatTheMapSays : Obligations.ReadsReturnWhatTheMapSays := by
  unfold Obligations.ReadsReturnWhatTheMapSays
  intro s hnw read gives drawsAt
  have always (r : Reg) (hr : r.mapped s.rsaNw = true) (howned : r.engineOwned = false) {v : Word}
      (hv : r.value s = v) : gives r.offset v := State.handleAccess_read_value hnw hr (.inr howned) hv
  refine ⟨always .id rfl rfl rfl, always .ctrl rfl rfl s.ctrlWord_eq,
    always .status rfl rfl s.status.word_eq_ofNat, always .cmd rfl rfl rfl,
    always .param rfl rfl (State.paramWord_eq hnw), fun i hi => always (.exp i) (decide_eq_true hi) rfl rfl,
    fun hb => ?_, fun hb => ?_⟩
  · have idle (r : Reg) (hr : r.mapped s.rsaNw = true) {v : Word} (hv : r.value s = v) : gives r.offset v :=
      State.handleAccess_read_value hnw hr (.inl hb) hv
    exact ⟨fun i => idle (.h i) rfl rfl, idle .lenLo rfl (extractLsb'_zero_eq_ofNat s.len),
      idle .lenHi rfl (extractLsb'_half_eq_ofNat s.len), fun i => idle (.msg i) rfl rfl,
      fun i hi => ⟨idle (.base i) (decide_eq_true hi) rfl, idle (.mod i) (decide_eq_true hi) rfl,
        idle (.res i) (decide_eq_true hi) rfl⟩⟩
  · have owned (r : Reg) (hr : r.mapped s.rsaNw = true) (howned : r.engineOwned = true) : drawsAt r.offset :=
      State.handleAccess_read_drawn hnw hr hb howned
    exact ⟨fun i => owned (.h i) rfl rfl, owned .lenLo rfl rfl, owned .lenHi rfl rfl, fun i => owned (.msg i) rfl rfl,
      fun i hi => ⟨owned (.base i) (decide_eq_true hi) rfl, owned (.mod i) (decide_eq_true hi) rfl,
        owned (.res i) (decide_eq_true hi) rfl⟩⟩

/-! ### Refused accesses -/

/-- The aligned offsets at which a block with operands of `nw` words has no register (20_memory.md R51 to R53). -/
def Unmapped (nw a : Nat) : Prop :=
  (0x014 ≤ a ∧ a ≤ 0x01C) ∨ a = 0x034 ∨ (0x080 ≤ a ∧ a ≤ 0xFFC) ∨
    (0x1000 ≤ a ∧ a < 0x5000 ∧ nw ≤ a % 0x1000 / 4) ∨ 0x5000 ≤ a

/-- The gaps of the first page below 0x080, by trying every offset there. -/
theorem pageReg_low_eq_none_iff :
    ∀ a < 0x080, a % 4 = 0 → (pageReg a = none ↔ (0x014 ≤ a ∧ a ≤ 0x01C) ∨ a = 0x034) := by
  decide

theorem pageReg_eq_none_iff {a : Nat} (ha : a % 4 = 0) :
    pageReg a = none ↔ (0x014 ≤ a ∧ a ≤ 0x01C) ∨ a = 0x034 ∨ 0x080 ≤ a := by
  by_cases hlow : a < 0x080
  · rw [pageReg_low_eq_none_iff a hlow ha]
    omega
  · simp only [pageReg_high (Nat.le_of_not_lt hlow), true_iff]
    omega

theorem windowReg_eq_none_iff {nw off : Nat} {mk : Nat → Reg} : windowReg nw off mk = none ↔ nw ≤ off / 4 := by
  simp [windowReg]

theorem regAtAligned_eq_none_iff {nw a : Nat} (ha : a % 4 = 0) : regAtAligned nw a = none ↔ Unmapped nw a := by
  unfold regAtAligned Unmapped
  split
  case h_1 =>
    rw [pageReg_eq_none_iff ha]
    omega
  case h_6 h0 h1 h2 h3 h4 =>
    have hpast : a / 0x1000 ≠ 0 ∧ a / 0x1000 ≠ 1 ∧ a / 0x1000 ≠ 2 ∧ a / 0x1000 ≠ 3 ∧ a / 0x1000 ≠ 4 :=
      ⟨h0, h1, h2, h3, h4⟩
    simp only [true_iff]
    omega
  all_goals
    rw [windowReg_eq_none_iff]
    omega

/-- An access reaches no register exactly when it has the wrong width, is misaligned, or is at an unmapped offset
(20_memory.md R53, R54). -/
theorem Access.target_eq_none_iff {nw : Nat} {a : Access} :
    a.target nw = none ↔ a.width ≠ .bytes 4 ∨ a.addr % 4 ≠ 0 ∨ Unmapped nw a.addr := by
  unfold Access.target
  by_cases hw : a.width = .bytes 4
  · by_cases ha : a.addr % 4 = 0
    · simp [hw, ha, regAtAligned_eq_none_iff ha]
    · simp [ha]
  · simp [hw]

@[simp] theorem State.readReg_responses (s : State) (r : Reg) : (s.readReg r).2.responses = s.responses := by
  obtain ⟨-, -, h⟩ | ⟨-, h⟩ := s.readReg_cases r <;> simp [h]

@[simp] theorem State.storeInput_responses (s : State) (r : Reg) (v : Word) :
    (s.storeInput r v).responses = s.responses := by
  cases r <;> rfl

@[simp] theorem State.writeReg_responses (s : State) (r : Reg) (v : Word) :
    (s.writeReg r v).responses = s.responses := by
  obtain h | h | ⟨-, -, h⟩ | h | ⟨-, -, h⟩ | ⟨-, h⟩ | ⟨-, h⟩ := s.writeReg_cases r v <;> simp [h]

/-- Settles O41: the refused accesses are those without a target. -/
theorem busErrorsAreExactlyTheRefusedAccesses : Obligations.BusErrorsAreExactlyTheRefusedAccesses := by
  unfold Obligations.BusErrorsAreExactlyTheRefusedAccesses
  intro s a _ refused
  have hrefused : a.target s.rsaNw = none ↔ refused := Access.target_eq_none_iff
  rw [← hrefused]
  obtain ⟨htarget, h⟩ | ⟨r, htarget, hk, h⟩ | ⟨r, v, htarget, hk, h⟩ := s.handleAccess_cases a
  · exact ⟨fun _ => h, fun hmapped => absurd htarget hmapped⟩
  · refine ⟨fun hnone => by simp [htarget] at hnone, fun _ => ⟨.data (s.readReg r).1, by simp [h], ?_, ?_⟩⟩
    · exact fun _ => ⟨_, rfl⟩
    · simp [hk]
  · refine ⟨fun hnone => by simp [htarget] at hnone, fun _ => ⟨.written, by simp [h], ?_, fun _ _ => rfl⟩⟩
    simp [hk]

/-! ### Writes -/

/-- The registers that hold an input word of the commands (20_memory.md R56). -/
def Reg.isInput : Reg → Bool
  | .id | .ctrl | .status | .cmd | .param | .res _ => false
  | .h _ | .lenLo | .lenHi | .msg _ | .base _ | .exp _ | .mod _ => true

/-- A write of an input word is dropped while BUSY = 1 and stored while BUSY = 0. -/
theorem State.writeReg_input (s : State) {r : Reg} (hr : r.isInput = true) (v : Word) :
    s.writeReg r v = if s.status.busy then s.overrun else s.storeInput r v := by
  cases r with
  | id | ctrl | status | cmd | param | res => cases hr
  | h | lenLo | lenHi | msg | base | exp | mod => rfl

/-- A mapped write as an access: what the write makes of the state, and a normal response. -/
theorem State.handleAccess_write_eq {s t : State} (hnw : s.rsaNw ≤ 1024) {r : Reg} (hr : r.mapped s.rsaNw = true)
    {v : Word} (ht : s.writeReg r v = t) :
    s.handleAccess ⟨r.offset, .bytes 4, .write v⟩ = { t with responses := .written :: s.responses } := by
  rw [State.handleAccess_write s hnw hr, ← State.writeReg_responses s r v, ht]
  rfl

/-- Settles O45: the write of a read-only register changes nothing. -/
theorem readOnlyWritesAreIgnored : Obligations.ReadOnlyWritesAreIgnored := by
  unfold Obligations.ReadOnlyWritesAreIgnored
  rintro s v hnw a (rfl | rfl | ⟨i, hi, rfl⟩)
  · exact State.handleAccess_write_eq (r := .id) hnw rfl rfl
  · exact State.handleAccess_write_eq (r := .param) hnw rfl rfl
  · exact State.handleAccess_write_eq (r := .res i) hnw (decide_eq_true hi) rfl

/-- Settles O44: CMD and the input words answer a write while BUSY = 1 with OVR. -/
theorem busyWritesAreDroppedWithOvr : Obligations.BusyWritesAreDroppedWithOvr := by
  unfold Obligations.BusyWritesAreDroppedWithOvr
  intro s v r hnw hb hr hid hparam hctrl hstatus hres
  have hdrop : s.writeReg r v = s.overrun := by
    by_cases hinput : r.isInput = true
    · rw [s.writeReg_input hinput, if_pos hb]
    · obtain rfl : r = .cmd := by cases r <;> simp_all [Reg.isInput]
      exact if_pos hb
  have haccess := State.handleAccess_write_eq hnw hr hdrop
  exact ⟨haccess, by rw [haccess]; rfl⟩

theorem withLenLo_eq_ofNat (len : BitVec 64) (v : Word) :
    withLenLo len v = BitVec.ofNat 64 (len.toNat / 2 ^ 32 * 2 ^ 32 + v.toNat) := by
  apply BitVec.eq_of_toNat_eq
  rw [withLenLo, BitVec.toNat_append, ← Nat.shiftLeft_add_eq_or_of_lt v.isLt, Nat.shiftLeft_eq,
    BitVec.extractLsb'_toNat, Nat.shiftRight_eq_div_pow, BitVec.toNat_ofNat]
  have hlen := len.isLt
  have hv := v.isLt
  omega

theorem withLenHi_eq_ofNat (len : BitVec 64) (v : Word) :
    withLenHi len v = BitVec.ofNat 64 (v.toNat * 2 ^ 32 + len.toNat % 2 ^ 32) := by
  apply BitVec.eq_of_toNat_eq
  rw [withLenHi, BitVec.toNat_append, ← Nat.shiftLeft_add_eq_or_of_lt (BitVec.isLt _), Nat.shiftLeft_eq,
    BitVec.extractLsb'_toNat, Nat.shiftRight_zero, BitVec.toNat_ofNat]
  have hv := v.isLt
  omega

/-- A word stored in an operand memory: the memory stays canonical and holds it, and every other word stays. -/
theorem Memory.write_stores {nw i : Nat} (m : Memory) (hi : i < nw) (v : Word) :
    (m.fits nw → (m.write i v).fits nw ∧ (m.write i v).read i = v) ∧
      ∀ k, k ≠ i → (m.write i v).read k = m.read k :=
  ⟨fun hm => ⟨Memory.fits_write hm hi v, Memory.read_write_same hm.1 i v⟩, fun _ hk => m.read_write_other hk v⟩

/-- Settles O43: each input register stores the word by its own field's update. -/
theorem idleWritesStoreTheWord : Obligations.IdleWritesStoreTheWord := by
  unfold Obligations.IdleWritesStoreTheWord
  intro s v hnw hb puts stored
  have store (r : Reg) (hr : r.mapped s.rsaNw = true) (hinput : r.isInput = true) : puts r.offset (s.storeInput r v) :=
    State.handleAccess_write_eq hnw hr (by rw [s.writeReg_input hinput, hb]; rfl)
  refine ⟨fun i => store (.h i) rfl rfl, ?_, ?_, fun i => store (.msg i) rfl rfl, fun i hi => ?_⟩
  · rw [← withLenLo_eq_ofNat]
    exact store .lenLo rfl rfl
  · rw [← withLenHi_eq_ofNat]
    exact store .lenHi rfl rfl
  · have hmapped : decide (i < s.rsaNw) = true := decide_eq_true hi
    exact ⟨⟨_, store (.base i) hmapped rfl, s.base.write_stores hi v⟩,
      ⟨_, store (.exp i) hmapped rfl, s.exp.write_stores hi v⟩,
      ⟨_, store (.mod i) hmapped rfl, s.mod.write_stores hi v⟩⟩

/-! ### Repeated accesses -/

theorem Memory.write_write {m : Memory} (hm : m.wf = true) (i : Nat) (v : Word) :
    (m.write i v).write i v = m.write i v := by
  have hw : (m.write i v).wf = true := Memory.wfFrom_write hm (Nat.zero_le i) v
  refine Memory.eq_of_read_eq (Memory.wfFrom_write hw (Nat.zero_le i) v) hw fun k => ?_
  by_cases hk : k = i
  · rw [hk, Memory.read_write_same hw, Memory.read_write_same hm]
  · rw [Memory.read_write_other _ hk]

theorem withLenLo_withLenLo (len : BitVec 64) (v : Word) : withLenLo (withLenLo len v) v = withLenLo len v := by
  rw [withLenLo, withLenLo, BitVec.extractLsb'_append_eq_left]

theorem withLenHi_withLenHi (len : BitVec 64) (v : Word) : withLenHi (withLenHi len v) v = withLenHi len v := by
  rw [withLenHi, withLenHi, BitVec.extractLsb'_append_eq_of_add_le (Nat.le_refl 32), BitVec.extractLsb'_eq_self]

theorem Status.clear_clear (f : Status) (v : Word) : (f.clear v).clear v = f.clear v := by
  simp [Status.clear]

@[simp] theorem State.storeInput_status (s : State) (r : Reg) (v : Word) : (s.storeInput r v).status = s.status := by
  cases r <;> rfl

theorem State.storeInput_storeInput {s : State} (hs : s.OperandsFit) (r : Reg) (v : Word) :
    (s.storeInput r v).storeInput r v = s.storeInput r v := by
  cases r with
  | id | ctrl | status | cmd | param | res => rfl
  | h i => exact congrArg s.setH (Vector.set_set v i.isLt)
  | lenLo => exact congrArg s.setLen (withLenLo_withLenLo s.len v)
  | lenHi => exact congrArg s.setLen (withLenHi_withLenHi s.len v)
  | msg i => exact congrArg s.setMsg (Vector.set_set v i.isLt)
  | base i => exact congrArg s.setBase (Memory.write_write hs.base.1 i v)
  | exp i => exact congrArg s.setExp (Memory.write_write hs.exp.1 i v)
  | mod i => exact congrArg s.setMod (Memory.write_write hs.mod.1 i v)

/-- The same write twice is the write once, for every register but CMD, whose second write finds BUSY = 1 (20_memory.md
R57). -/
theorem State.writeReg_writeReg {s : State} (hs : s.OperandsFit) {r : Reg} (hr : r ≠ .cmd) (v : Word) :
    (s.writeReg r v).writeReg r v = s.writeReg r v := by
  by_cases hinput : r.isInput = true
  · rw [State.writeReg_input _ hinput, State.writeReg_input _ hinput]
    cases hb : s.status.busy
    · simp [hb, State.storeInput_storeInput hs]
    · simp only [if_true, State.overrun_status, Status.overrun_busy, hb]
      rfl
  · cases r with
    | cmd => exact absurd rfl hr
    | h | lenLo | lenHi | msg | base | exp | mod => exact absurd rfl hinput
    | id | param | res => rfl
    | ctrl =>
      simp only [State.writeReg, State.ctrlWrite]
      split <;> rfl
    | status => exact congrArg s.setStatus (s.status.clear_clear v)

/-- What the bus has answered plays no part in a write. -/
theorem State.writeReg_respond (s : State) (r : Reg) (v : Word) (x : Response) :
    (s.respond x).writeReg r v = (s.writeReg r v).respond x := by
  cases r with
  | id | param | res | status => rfl
  | ctrl =>
    simp only [State.writeReg, State.ctrlWrite]
    split <;> rfl
  | cmd | h | lenLo | lenHi | msg | base | exp | mod =>
    cases hb : s.status.busy <;> simp only [State.writeReg, State.respond_status, hb] <;> rfl

@[simp] theorem State.storeInput_rsaNw (s : State) (r : Reg) (v : Word) : (s.storeInput r v).rsaNw = s.rsaNw := by
  cases r <;> rfl

theorem State.writeReg_rsaNw (s : State) (r : Reg) (v : Word) : (s.writeReg r v).rsaNw = s.rsaNw := by
  obtain h | h | ⟨-, -, h⟩ | h | ⟨-, -, h⟩ | ⟨-, h⟩ | ⟨-, h⟩ := s.writeReg_cases r v <;> simp [h]

/-- What the bus has answered plays no part in what a register reads as. -/
theorem Reg.value_respond (s : State) (r : Reg) (x : Response) : r.value (s.respond x) = r.value s := by
  cases r <;> rfl

/-- Settles O50: a write leaves the registers where the same write keeps them, and an idle read leaves them alone. -/
theorem repeatedAccessesAreIdempotent : Obligations.RepeatedAccessesAreIdempotent := by
  unfold Obligations.RepeatedAccessesAreIdempotent
  intro s r v hs hr
  constructor
  · rintro hcmd t rfl
    have hnw : ((s.writeReg r v).respond .written).rsaNw = s.rsaNw := s.writeReg_rsaNw r v
    rw [State.handleAccess_write s hs.widthHigh hr, State.handleAccess_write _ (hnw ▸ hs.widthHigh) (hnw ▸ hr),
      State.writeReg_respond, State.writeReg_writeReg hs.operandsFit hcmd]
    rfl
  · rintro hb t rfl
    have hread := State.handleAccess_read_value hs.widthHigh hr (.inl hb) rfl
    have hagain := State.handleAccess_read_value (s := s.respond (.data (r.value s))) hs.widthHigh hr (.inl hb)
      (Reg.value_respond ..)
    rw [hread, hagain]
    exact ⟨r.value s, rfl, rfl⟩

end Sys2Proof.Machine
end

section
/-! PROOFS. The encoder and the decoder against each other and against the opcode map (spec/30_encoding.md R75 to R79,
R87). -/

namespace Sys2Proof.Machine

/-! ### Each command has one word, and each legal word one command -/

/-- Every value of the 6-bit field NB goes into the word of SHA_FINAL and comes back. -/
theorem decode_encode_shaFinal : ∀ nb < 64, decode (encode (.shaFinal nb)) = .ok (.shaFinal nb) := by
  decide

/-- Settles O2, command by command. -/
theorem decodeInvertsEncode : Obligations.DecodeInvertsEncode := by
  unfold Obligations.DecodeInvertsEncode
  intro i hi
  cases i with
  | shaFinal nb => exact decode_encode_shaFinal nb (Nat.lt_succ_of_le (of_decide_eq_true hi))
  | shaInit | shaBlock | shaCompress | modexp | digestToBase | cmpDigest => rfl

/-- The word of a command that OP alone selects holds its OP and zeros. -/
theorem encode_of_decodeOp : ∀ op : BitVec 4, ∀ i ∈ (decodeOp op.toNat).toOption,
    encode i = (0 : BitVec 18) ++ (0 : BitVec 6) ++ (0 : BitVec 4) ++ op ∧ i.wf = true := by
  decide

/-- The word of SHA_FINAL, field by field (30_encoding.md R75). -/
theorem encode_shaFinal_eq_fields : ∀ nb : BitVec 6,
    encode (.shaFinal nb.toNat) = (0 : BitVec 18) ++ nb ++ (0 : BitVec 4) ++ (3 : BitVec 4) := by
  decide

/-- Settles O3: the decoder's tests leave every field of a legal word fixed but SHA_FINAL's NB. -/
theorem encodeInvertsDecode : Obligations.EncodeInvertsDecode := by
  unfold Obligations.EncodeInvertsDecode
  intro cw i h
  unfold decode at h
  split_ifs at h with hhigh hlow hop hnb
  · obtain rfl := Except.ok.inj h
    have hlt : (nbField cw).toNat < 64 := (nbField cw).isLt
    refine ⟨?_, decide_eq_true (Nat.le_of_lt_succ hlt)⟩
    rw [encode_shaFinal_eq_fields]
    conv_rhs => rw [word_eq_fields cw, not_not.mp hhigh, not_not.mp hlow, hop]
  · obtain ⟨hword, hwf⟩ := encode_of_decodeOp (opField cw) i (by rw [h]; rfl)
    refine ⟨?_, hwf⟩
    rw [hword]
    conv_rhs => rw [word_eq_fields cw, not_not.mp hhigh, not_not.mp hlow, not_not.mp hnb]

/-- The legal words are the words of the well-formed commands (30_encoding.md R76, R79). -/
theorem decode_eq_ok_iff {cw : Word} {i : Instr} : decode cw = .ok i ↔ encode i = cw ∧ i.wf = true := by
  constructor
  · exact encodeInvertsDecode cw i
  · rintro ⟨rfl, hi⟩
    exact decodeInvertsEncode i hi

/-! ### The opcode map -/

/-- A field that lies inside the mask is the field of the value the word matches. -/
theorem extractLsb'_of_and_eq {cw mask value : Word} (h : cw &&& mask = value) {start len : Nat}
    (hmask : mask.extractLsb' start len = BitVec.allOnes len) :
    cw.extractLsb' start len = value.extractLsb' start len := by
  rw [← h, BitVec.extractLsb'_and, hmask, BitVec.and_allOnes]

/-- The row of SHA_FINAL fixes every field but NB (30_encoding.md R76). -/
theorem decode_of_shaFinalRow {cw : Word} (h : cw &&& 0xFFFFC0FF = 0x00000003) :
    decode cw = .ok (.shaFinal (nbField cw).toNat) := by
  have hhigh : reservedHighField cw = 0 := extractLsb'_of_and_eq h (by decide)
  have hlow : reservedLowField cw = 0 := extractLsb'_of_and_eq h (by decide)
  have hop : opField cw = 3 := extractLsb'_of_and_eq h (by decide)
  simp [decode, hhigh, hlow, hop]

/-- Every row of the opcode map selects words of its own command only. -/
theorem decode_of_opcodeRow {cw : Word} {row : OpcodeRow} (hrow : row ∈ opcodeTable)
    (h : cw &&& row.mask = row.value) : ∃ i, decode cw = .ok i ∧ i.mnemonic = row.mnemonic := by
  have whole {value : Word} (h : cw &&& 0xFFFFFFFF = value) : cw = value := by
    rwa [show (0xFFFFFFFF : Word) = BitVec.allOnes 32 from rfl, BitVec.and_allOnes] at h
  simp only [opcodeTable, List.mem_cons, List.not_mem_nil, or_false] at hrow
  obtain rfl | rfl | rfl | rfl | rfl | rfl | rfl := hrow
  · exact ⟨.shaInit, whole h ▸ rfl, rfl⟩
  · exact ⟨.shaBlock, whole h ▸ rfl, rfl⟩
  · exact ⟨_, decode_of_shaFinalRow h, rfl⟩
  · exact ⟨.shaCompress, whole h ▸ rfl, rfl⟩
  · exact ⟨.modexp, whole h ▸ rfl, rfl⟩
  · exact ⟨.digestToBase, whole h ▸ rfl, rfl⟩
  · exact ⟨.cmpDigest, whole h ▸ rfl, rfl⟩

/-- The word of a well-formed command is in a row with the command's mnemonic. -/
theorem encode_in_opcodeTable (i : Instr) : Laws.EncodedInRow.Statement i := by
  cases i with
  | shaInit => exact Laws.EncodedInRow.shaInit
  | shaBlock => exact Laws.EncodedInRow.shaBlock
  | shaFinal nb => exact Laws.EncodedInRow.shaFinal nb
  | shaCompress => exact Laws.EncodedInRow.shaCompress
  | modexp => exact Laws.EncodedInRow.modexp
  | digestToBase => exact Laws.EncodedInRow.digestToBase
  | cmpDigest => exact Laws.EncodedInRow.cmpDigest

/-- A mnemonic has one row. -/
theorem opcodeRow_eq_of_mnemonic : ∀ row ∈ opcodeTable, ∀ row' ∈ opcodeTable,
    row.mnemonic = row'.mnemonic → row = row' := by
  decide

/-- Settles O4: a row selects words of its command only, and a command's word is in the one row of its mnemonic. -/
theorem opcodeMapSelectsTheCommand : Obligations.OpcodeMapSelectsTheCommand := by
  unfold Obligations.OpcodeMapSelectsTheCommand
  intro cw row hrow
  refine ⟨decode_of_opcodeRow hrow, ?_⟩
  rintro ⟨i, hi, hname⟩
  obtain ⟨rfl, hwf⟩ := decode_eq_ok_iff.mp hi
  obtain ⟨row', hrow', hname', hsel⟩ := encode_in_opcodeTable i hwf
  rwa [opcodeRow_eq_of_mnemonic row hrow row' hrow' (hname.symm.trans hname'.symm)]

/-! ### How many words are legal -/

/-- The commands a command word can carry: six without an operand and SHA_FINAL with NB from 0 to 63. -/
def legalCommands : List Instr :=
  [.shaInit, .shaBlock, .shaCompress, .modexp, .digestToBase, .cmpDigest] ++ (List.range 64).map .shaFinal

theorem mem_legalCommands {i : Instr} : i ∈ legalCommands ↔ i.wf = true := by
  cases i with
  | shaFinal nb => simp [legalCommands, Instr.wf, Nat.lt_succ_iff]
  | shaInit | shaBlock | shaCompress | modexp | digestToBase | cmpDigest => simp [legalCommands, Instr.wf]

theorem nodup_legalCommands : legalCommands.Nodup := by
  have hfinal : ((List.range 64).map Instr.shaFinal).Nodup :=
    List.nodup_range.map fun _ _ h => Instr.shaFinal.inj h
  simp [legalCommands, hfinal]

/-- Settles O6: the words of the 70 commands are different, since each decodes to its own command. -/
theorem seventyWordsAreLegal : Obligations.SeventyWordsAreLegal := by
  unfold Obligations.SeventyWordsAreLegal
  refine ⟨legalCommands.map encode, nodup_legalCommands.map_on ?_, by simp [legalCommands], fun cw => ?_⟩
  · intro i hi j hj hij
    have hdecode : decode (encode i) = .ok i := decodeInvertsEncode i (mem_legalCommands.mp hi)
    rw [hij, decodeInvertsEncode j (mem_legalCommands.mp hj)] at hdecode
    exact (Except.ok.inj hdecode).symm
  · simp only [List.mem_map, mem_legalCommands, decode_eq_ok_iff, and_comm]

/-- Settles O1, word by word. -/
theorem specCommandWordsDecode : Obligations.SpecCommandWordsDecode := by
  unfold Obligations.SpecCommandWordsDecode
  decide

end Sys2Proof.Machine
end

section
/-! PROOFS. The life of a command word: acceptance, the engine's turn, completion (spec/30_encoding.md R78, R82 to
R86). -/

namespace Sys2Proof.Machine

/-! ### Illegal words -/

/-- The values of OP that select no command, SHA_FINAL's 3 apart (30_encoding.md R78 (c)). -/
theorem decodeOp_eq_error_iff {op : BitVec 4} (hop : op ≠ 3) :
    (∃ e, decodeOp op.toNat = .error e) ↔ op.toNat ∈ [0x0, 0x5, 0x6, 0x7, 0xB, 0xC, 0xD, 0xE, 0xF] := by
  have hthree : op.toNat ≠ 3 := fun h => hop (BitVec.eq_of_toNat_eq h)
  unfold decodeOp
  split
  case h_7 _ h1 h2 h4 h8 h9 h10 =>
    have hother : op.toNat ≠ 1 ∧ op.toNat ≠ 2 ∧ op.toNat ≠ 4 ∧ op.toNat ≠ 8 ∧ op.toNat ≠ 9 ∧ op.toNat ≠ 10 :=
      ⟨h1, h2, h4, h8, h9, h10⟩
    simp only [Except.error.injEq, exists_eq', List.mem_cons, List.not_mem_nil, or_false, true_iff]
    omega
  all_goals next h => simp [h]

/-- The four causes of an illegal word, each by its field (30_encoding.md R78). -/
theorem decode_eq_error_iff (cw : Word) :
    (∃ e, decode cw = .error e) ↔
      (reservedHighField cw ≠ 0 ∨ reservedLowField cw ≠ 0 ∨
        (opField cw).toNat ∈ [0x0, 0x5, 0x6, 0x7, 0xB, 0xC, 0xD, 0xE, 0xF] ∨
        (opField cw ≠ 0x3 ∧ nbField cw ≠ 0)) := by
  unfold decode
  split_ifs with hhigh hlow hop hnb
  · exact iff_of_true ⟨_, rfl⟩ (.inl hhigh)
  · exact iff_of_true ⟨_, rfl⟩ (.inr (.inl hlow))
  · have hmem : (opField cw).toNat ∉ [0x0, 0x5, 0x6, 0x7, 0xB, 0xC, 0xD, 0xE, 0xF] := by rw [hop]; decide
    refine iff_of_false (fun ⟨_, h⟩ => nomatch h) ?_
    tauto
  · exact iff_of_true ⟨_, rfl⟩ (.inr (.inr (.inr ⟨hop, hnb⟩)))
  · rw [decodeOp_eq_error_iff hop]
    tauto

theorem engineTurn_illegal {s : State} {cw : Word} {e : IllegalWord} (hp : s.pend = some cw)
    (hd : decode cw = .error e) : engineTurn s = .next (s.raiseCmdError .illegalCmd) := by
  rw [engineTurn, State.fetch_eq, hp]
  simp only [runWord, hd]

theorem engineTurn_legal {s : State} {cw : Word} {i : Instr} (hp : s.pend = some cw) (hd : decode cw = .ok i) :
    engineTurn s = exec i s := by
  rw [engineTurn, State.fetch_eq, hp]
  simp only [runWord, hd]

/-- Settles O5: the decoder's tests are the four causes, and an illegal word differs from a legal one only in the
engine's turn. -/
theorem illegalWordsCompleteWithIllegalCmd : Obligations.IllegalWordsCompleteWithIllegalCmd := by
  unfold Obligations.IllegalWordsCompleteWithIllegalCmd
  intro cw
  refine ⟨decode_eq_error_iff cw, fun e hd s => ⟨fun hb => ?_, fun hnext hp => ?_⟩⟩
  · exact State.handleAccess_cmdWrite_idle hb cw
  · exact (step_of_engineNext hnext).trans (engineTurn_illegal (s := s.setEvents s.events.tail) hp hd)

/-! ### Acceptance and the engine's turn -/

/-- Settles O47: the acceptance clears DONE, and IRQ with it. -/
theorem cmdWriteIsAccepted : Obligations.CmdWriteIsAccepted := by
  unfold Obligations.CmdWriteIsAccepted
  intro s cw hb
  rw [State.handleAccess_cmdWrite_idle hb]
  exact ⟨rfl, State.irq_of_not_done rfl⟩

/-- Settles O7: the engine's turn runs a legal word by its meaning. -/
theorem stepRunsThePendingCommand : Obligations.StepRunsThePendingCommand := by
  unfold Obligations.StepRunsThePendingCommand
  intro s cw i hnext hp hd _
  exact (step_of_engineNext hnext).trans (engineTurn_legal (s := s.setEvents s.events.tail) hp hd)

theorem decode_of_decodeTableWord {nbits w : Nat} {i : Instr} (h : decodeTableWord nbits w = some i) :
    decode (commandWord nbits w) = .ok i := by
  unfold decodeTableWord at h
  split_ifs at h
  split at h
  next i' hi' => rw [hi', Option.some.inj h]
  next => cases h

/-- Settles O8: the placed word is pending and the engine's turn is the next event. -/
theorem fetchWordIsTheNextToRun : Obligations.FetchWordIsTheNextToRun := by
  unfold Obligations.FetchWordIsTheNextToRun
  intro s nbits w i h
  have hturn : step (s.withFetchWord nbits w) = engineTurn (s.accept (commandWord nbits w)) :=
    step_events_cons (e := .engine) (es := s.events) rfl
  exact hturn.trans (engineTurn_legal rfl (decode_of_decodeTableWord h))

/-! ### Completion -/

/-- Settles O11: a completion with an error has a nonzero code, and one without it makes writes that touch neither the
flags nor CTRL nor the pins. -/
theorem everyCommandCompletes : Obligations.EveryCommandCompletes := by
  unfold Obligations.EveryCommandCompletes
  intro i s
  refine ⟨_, exec_eq i s, ?_⟩
  cases hr : commandExec i s with
  | error e =>
    obtain ⟨hcode, -⟩ := e.code_bounds
    have hne : e.code ≠ 0#4 := hcode
    simp [hne]
  | ok t =>
    obtain ⟨_, _, rfl⟩ | ⟨_, rfl⟩ | ⟨_, -, rfl⟩ | ⟨_, -, rfl⟩ | ⟨_, rfl⟩ := commandExec_ok hr <;> simp

/-- A pending word, legal or not, completes in the engine's turn: the engine is idle and DONE is set. -/
theorem engineTurn_completes {s : State} {cw : Word} (hp : s.pend = some cw) :
    ∃ t, engineTurn s = .next t ∧ t.idle ∧ t.status.done = true := by
  cases hd : decode cw with
  | error e => exact ⟨_, engineTurn_illegal hp hd, ⟨rfl, rfl⟩, rfl⟩
  | ok i =>
    obtain ⟨hbusy, hdone, hpend⟩ := s.complete_idle (commandExec i s)
    exact ⟨_, (engineTurn_legal hp hd).trans (exec_eq i s), ⟨hbusy, hpend⟩, hdone⟩

/-- A pending command survives every mapped write but a soft reset. -/
theorem State.writeReg_pending {s : State} (hb : s.status.busy = true) (r : Reg) (v : Word) :
    (r = .ctrl ∧ v.getLsbD 1 = true ∧ s.writeReg r v = s.resetBlock) ∨
    ((s.writeReg r v).pend = s.pend ∧ (s.writeReg r v).status.busy = true ∧ (s.writeReg r v).events = s.events) := by
  obtain h | h | h | h | ⟨-, hidle, -⟩ | ⟨-, h⟩ | ⟨hidle, -⟩ := s.writeReg_cases r v
  case inr.inr.inl => exact .inl h
  case inr.inr.inr.inr.inl => simp [hb] at hidle
  case inr.inr.inr.inr.inr.inr => simp [hb] at hidle
  all_goals exact .inr (by simp [h, hb])

/-- An access that reaches a register is 32 bits wide and at the register's offset. -/
theorem Access.eq_of_target {nw : Nat} (hnw : nw ≤ 1024) {a : Access} {r : Reg} (h : a.target nw = some r) :
    a = ⟨r.offset, .bytes 4, a.kind⟩ := by
  obtain ⟨hw, ha, -⟩ := (Access.target_eq_some hnw).mp h
  rw [← ha, ← hw]

/-- A pending command survives every host access but a write of CTRL with SRST (70_reset_and_hazards.md R167). -/
theorem State.handleAccess_pending {s : State} (hb : s.status.busy = true) (hnw : s.rsaNw ≤ 1024) (a : Access) :
    ((∃ v, v.getLsbD 1 = true ∧ a = ⟨0x004, .bytes 4, .write v⟩) ∧ (s.handleAccess a).idle) ∨
    ((s.handleAccess a).pend = s.pend ∧ (s.handleAccess a).status.busy = true ∧
      (s.handleAccess a).rsaNw = s.rsaNw ∧ (s.handleAccess a).events = s.events) := by
  obtain ⟨-, h⟩ | ⟨r, -, -, h⟩ | ⟨r, v, hr, hk, h⟩ := s.handleAccess_cases a <;> rw [h]
  · exact .inr ⟨rfl, hb, rfl, rfl⟩
  · obtain ⟨-, -, hread⟩ | ⟨-, hread⟩ := s.readReg_cases r <;> rw [hread] <;> exact .inr ⟨rfl, hb, rfl, rfl⟩
  · obtain ⟨rfl, hv, hreset⟩ | ⟨hpend, hbusy, hevents⟩ := State.writeReg_pending hb r v
    · have ha : a = ⟨0x004, .bytes 4, .write v⟩ := (Access.eq_of_target hnw hr).trans (by rw [hk]; rfl)
      exact .inl ⟨⟨v, hv, ha⟩, by rw [hreset]; exact ⟨rfl, rfl⟩⟩
    · exact .inr ⟨hpend, hbusy, s.writeReg_rsaNw r v, hevents⟩

/-- Settles O15, by induction on the events: each is the completion, a reset, or an access that leaves the command
pending. -/
theorem pendingCommandCompletes : Obligations.PendingCommandCompletes := by
  unfold Obligations.PendingCommandCompletes
  intro s cw hp hb hnw
  induction hes : s.events generalizing s with
  | nil =>
    obtain ⟨t, ht, hidle, hdone⟩ := engineTurn_completes hp
    exact ⟨1, t, le_rfl, run_succ ((step_events_nil hes).trans ht), hidle, fun _ => hdone⟩
  | cons e es ih =>
    have hstep := step_events_cons hes
    cases e with
    | engine =>
      obtain ⟨t, ht, hidle, hdone⟩ := engineTurn_completes (s := s.setEvents es) hp
      exact ⟨1, t, by simp, run_succ (hstep.trans ht), hidle, fun _ => hdone⟩
    | hwReset =>
      refine ⟨1, _, by simp, run_succ hstep, ⟨rfl, rfl⟩, fun hno => ?_⟩
      exact absurd rfl (hno _ List.mem_cons_self).1
    | access a =>
      obtain ⟨⟨v, hv, rfl⟩, hidle⟩ | ⟨hpend, hbusy, hrsaNw, hevents⟩ :=
        State.handleAccess_pending (s := s.setEvents es) hb hnw a
      · refine ⟨1, _, by simp, run_succ hstep, hidle, fun hno => ?_⟩
        exact absurd rfl ((hno _ List.mem_cons_self).2 v hv)
      · obtain ⟨k, t, hk, hrun, hidle, hdone⟩ := ih _ (hpend.trans hp) hbusy (hrsaNw ▸ hnw) hevents
        exact ⟨k + 1, t, Nat.succ_le_succ hk, (run_succ hstep).trans hrun, hidle,
          fun hno => hdone fun e he => hno e (List.mem_cons_of_mem _ he)⟩

/-! ### A lost write of CMD -/

theorem State.handleAccess_cmdWrite_busy {s : State} (hb : s.status.busy = true) (cw : Word) :
    s.handleAccess ⟨0x00C, .bytes 4, .write cw⟩ = s.overrun.respond .written := by
  rw [show (0x00C : Nat) = Reg.offset .cmd from rfl, s.handleAccess_page_write (fun _ => rfl), State.writeReg, hb]
  rfl

/-- OVR plays no part in a command. -/
theorem commandExec_overrun (i : Instr) (s : State) :
    commandExec i s.overrun = (commandExec i s).map State.overrun := by
  cases i with
  | shaInit | shaCompress | digestToBase | cmpDigest => rfl
  | shaBlock | shaFinal | modexp =>
    simp only [commandExec, shaBlockExec, shaFinalExec, modexpExec, apply_ite (Except.map State.overrun)]
    rfl

theorem complete_overrun (i : Instr) (s : State) :
    s.overrun.complete (commandExec i s.overrun) = (s.complete (commandExec i s)).overrun := by
  rw [commandExec_overrun]
  cases commandExec i s <;> rfl

/-- Settles O48: the dropped write leaves OVR and its response behind, and the command reads neither. -/
theorem cmdWriteWhileBusyIsLost : Obligations.CmdWriteWhileBusyIsLost := by
  unfold Obligations.CmdWriteWhileBusyIsLost
  intro s cw _ i hb _ _
  rw [State.handleAccess_cmdWrite_busy hb]
  refine ⟨rfl, _, exec_eq i s, ?_⟩
  have hresp := complete_setResponses i s.overrun (.written :: s.responses)
  rw [complete_overrun] at hresp
  exact (exec_eq i _).trans (congrArg Host.Outcome.next hresp)

end Sys2Proof.Machine
end

section
/-! PROOFS. The message schedule, the padding, the blocks of a byte sequence and the digest (spec/40_sha1.md R99, R103 to
R105). -/

namespace Sys2Proof.Machine

/-! ### The schedule -/

/-- Each further word is made from the words before it, which stay. -/
theorem extendSchedule_succ (n : Nat) (ws : List Word) :
    extendSchedule (n + 1) ws = nextScheduleWord (extendSchedule n ws) :: extendSchedule n ws := by
  induction n generalizing ws with
  | zero => rfl
  | succ n ih => exact ih (nextScheduleWord ws :: ws)

theorem extendSchedule_getD_add (n k i : Nat) (ws : List Word) :
    (extendSchedule (n + k) ws).getD (i + k) 0 = (extendSchedule n ws).getD i 0 := by
  induction k with
  | zero => rfl
  | succ k ih => rw [← Nat.add_assoc, ← Nat.add_assoc, extendSchedule_succ, List.getD_cons_succ, ih]

/-- Word `t` of the schedule is the newest of the first `t + 1` words, and `i` words later it stands `i` behind the
newest. -/
theorem schedule_getD (m : Vector Word 16) {n i t : Nat} (hn : n ≤ 64) (ht : t + i + 1 = 16 + n) :
    (schedule m).getD t 0 = (extendSchedule n m.toList.reverse).getD i 0 := by
  have hlen : (extendSchedule 64 m.toList.reverse).length = 80 := by simp
  have hk := extendSchedule_getD_add n (64 - n) i m.toList.reverse
  rw [show n + (64 - n) = 64 by omega, show i + (64 - n) = 79 - t by omega] at hk
  rw [← hk, schedule, List.getD_reverse t (by omega), hlen]

theorem schedule_getD_block (m : Vector Word 16) (t : Fin 16) : (schedule m).getD t.val 0 = m[t.val] := by
  have ht := t.isLt
  rw [schedule_getD m (n := 0) (i := 15 - t.val) (by omega) (by omega), extendSchedule,
    List.getD_reverse _ (by simp; omega)]
  simp [show 15 - (15 - t.val) = t.val by omega]

/-- Settles O22: word t is the newest of the first t + 1 words, made from the t before it. -/
theorem scheduleFollowsTheRecurrence : Obligations.ScheduleFollowsTheRecurrence := by
  unfold Obligations.ScheduleFollowsTheRecurrence
  refine fun m => ⟨schedule_length m, schedule_getD_block m, fun t h16 h80 => ?_⟩
  obtain ⟨n, rfl⟩ : ∃ n, t = 16 + n := ⟨t - 16, by omega⟩
  have earlier (i : Nat) (hi : i < 16) :
      (schedule m).getD (16 + n - (i + 1)) 0 = (extendSchedule n m.toList.reverse).getD i 0 :=
    schedule_getD m (by omega) (by omega)
  rw [schedule_getD m (n := n + 1) (i := 0) (by omega) (by omega), extendSchedule_succ, List.getD_cons_zero,
    nextScheduleWord, earlier 2 (by omega), earlier 7 (by omega), earlier 13 (by omega), earlier 15 (by omega)]

/-! ### Padding -/

theorem zeroCount_lt (n : Nat) : zeroCount n < 64 := Nat.mod_lt _ (by omega)

/-- The zeros reach byte 56 of the message's last block where 0x80 and the length fit into it, and otherwise of the next
one. -/
theorem zeroCount_cases (n : Nat) :
    (n % 64 ≤ 55 ∧ n % 64 + 1 + zeroCount n = 56) ∨ (55 < n % 64 ∧ n % 64 + 1 + zeroCount n = 120) := by
  unfold zeroCount
  omega

/-- Byte j of the length field, as a slice of the 64-bit length (40_sha1.md R103). -/
theorem lengthByte_eq_extractLsb' (l : Nat) {j : Nat} (hj : j < 8) :
    lengthByte l j = (BitVec.ofNat 64 l).extractLsb' (56 - 8 * j) 8 := by
  ext i hi
  rw [lengthByte, ← BitVec.getLsbD_eq_getElem, BitVec.getElem_extractLsb', BitVec.getLsbD_ofNat, BitVec.getLsbD_ofNat,
    Nat.testBit_div_two_pow, decide_eq_true hi, decide_eq_true (by omega), Nat.add_comm]

/-- A message `m` with the padding that R103 gives a message of its length, whose length field holds `l`. -/
def padded (m : List Byte) (l : Nat) : List Byte :=
  m ++ [0x80] ++ List.replicate (zeroCount m.length) 0 ++ lengthField l

theorem pad_eq_padded (m : List Byte) : pad m = padded m (8 * m.length) := rfl

section Padded

variable (m : List Byte) (l : Nat)

theorem length_padded : (padded m l).length = m.length + 1 + zeroCount m.length + 8 := by
  simp only [padded, lengthField, List.length_append, List.length_singleton, List.length_replicate, List.length_map,
    List.length_range]

theorem padded_getD_of_lt {k : Nat} (hk : k < m.length) : (padded m l).getD k 0 = m.getD k 0 := by
  simp only [padded, List.append_assoc]
  exact List.getD_append _ _ _ _ hk

theorem padded_getD_length : (padded m l).getD m.length 0 = 0x80 := by
  simp only [padded, List.append_assoc]
  rw [List.getD_append_right _ _ _ _ le_rfl, Nat.sub_self]
  rfl

theorem padded_getD_zero {k : Nat} (hk : m.length < k) (hk' : k < m.length + 1 + zeroCount m.length) :
    (padded m l).getD k 0 = 0 := by
  have hlen : (m ++ [0x80]).length = m.length + 1 := by simp
  rw [padded, List.append_assoc, List.getD_append_right _ _ _ _ (by omega),
    List.getD_append _ _ _ _ (by rw [List.length_replicate]; omega), List.getD_replicate _ (by omega)]

theorem padded_getD_lengthByte {j : Nat} (hj : j < 8) :
    (padded m l).getD (m.length + 1 + zeroCount m.length + j) 0 = lengthByte l j := by
  have hlen : (m ++ [0x80] ++ List.replicate (zeroCount m.length) 0).length = m.length + 1 + zeroCount m.length := by
    simp only [List.length_append, List.length_singleton, List.length_replicate]
  rw [padded, List.getD_append_right _ _ _ _ (by omega), hlen, Nat.add_sub_cancel_left, lengthField,
    List.getD_eq_getElem _ _ (by simpa using hj), List.getElem_map, List.getElem_range]

end Padded

/-- Settles O24, byte by byte. -/
theorem paddingHasTheSpecsShape : Obligations.PaddingHasTheSpecsShape := by
  unfold Obligations.PaddingHasTheSpecsShape
  intro m _
  have hz := zeroCount_cases m.length
  have hz63 := zeroCount_lt m.length
  have hlen := length_padded m (8 * m.length)
  refine ⟨zeroCount m.length, by omega, hlen, ?_, ?_, fun z' hz' => ?_, fun k => padded_getD_of_lt m _,
    padded_getD_length m _, fun k => padded_getD_zero m _, fun j hj => ?_, ?_⟩
  · rw [pad_eq_padded, hlen]
    omega
  · omega
  · omega
  · rw [← lengthByte_eq_extractLsb' _ hj]
    exact padded_getD_lengthByte m _ hj
  · rw [blocks, List.length_map, List.length_range, pad_eq_padded, hlen]
    split <;> omega

/-! ### Blocks -/

/-- Whole blocks in front stay blocks, whatever follows. -/
theorem blocks_append {p : List Byte} (hp : p.length % 64 = 0) (q : List Byte) :
    blocks (p ++ q) = blocks p ++ blocks q := by
  have hcount : (p ++ q).length / 64 = p.length / 64 + q.length / 64 := by
    rw [List.length_append]
    omega
  have hfront (j : Nat) (hj : j < p.length / 64) : blockOf (p ++ q) j = blockOf p j := by
    rw [blockOf, List.drop_append_of_le_length (by omega),
      List.take_append_of_le_length (by rw [List.length_drop]; omega), blockOf]
  have hback (j : Nat) : blockOf (p ++ q) (p.length / 64 + j) = blockOf q j := by
    rw [blockOf, show 64 * (p.length / 64 + j) = p.length + 64 * j by omega, List.drop_length_add_append, blockOf]
  rw [blocks, hcount, List.range_add, List.map_append, List.map_map]
  congr 1
  · exact List.map_congr_left fun j hj => hfront j (List.mem_range.mp hj)
  · exact List.map_congr_left fun j _ => hback j

theorem blocks_of_length_lt {p : List Byte} (hp : p.length < 64) : blocks p = [] := by
  rw [blocks, Nat.div_eq_of_lt hp]
  rfl

theorem blocks_of_length_eq {p : List Byte} (hp : p.length = 64) : blocks p = [p] := by
  simp [blocks, hp, blockOf, List.take_of_length_le]

theorem compressBlocks_append (h : Vector Word 5) (bs bs' : List (List Byte)) :
    compressBlocks h (bs ++ bs') = compressBlocks (compressBlocks h bs) bs' := List.foldl_append

/-- Settles O25, by computing the two digests. -/
theorem knownDigests : Obligations.KnownDigests := by
  unfold Obligations.KnownDigests
  decide +kernel

end Sys2Proof.Machine
end

section
/-! PROOFS. The four SHA commands: their completions, and SHA_FINAL's padded tail as the padding of the message it
finishes (spec/40_sha1.md R106 to R109). -/

namespace Sys2Proof.Machine

/-! ### What each command's `Exec` answers -/

theorem shaBlockExec_of_le {s : State} (h : s.len.toNat + 512 ≤ maxLen) :
    shaBlockExec s = .ok ((s.setH (compress s.h s.msg)).setLen (BitVec.ofNat 64 (s.len.toNat + 512))) :=
  if_neg (Nat.not_lt.mpr h)

theorem shaBlockExec_of_lt {s : State} (h : maxLen < s.len.toNat + 512) : shaBlockExec s = .error .lenOvf := if_pos h

theorem shaFinalExec_of_le {s : State} {nb : Nat} (h : s.len.toNat + 8 * nb ≤ maxLen) :
    shaFinalExec nb s =
      .ok ((s.setH (compressBlocks s.h (blocks (finalBytes s.msg nb (s.len.toNat + 8 * nb))))).setLen
        (BitVec.ofNat 64 (s.len.toNat + 8 * nb))) :=
  if_neg (Nat.not_lt.mpr h)

theorem shaFinalExec_of_lt {s : State} {nb : Nat} (h : maxLen < s.len.toNat + 8 * nb) :
    shaFinalExec nb s = .error .lenOvf := if_pos h

/-- A length that the checks admit is what LEN holds (40_sha1.md R112). -/
theorem toNat_ofNat_of_le_maxLen {l : Nat} (hl : l ≤ maxLen) : (BitVec.ofNat 64 l).toNat = l :=
  Nat.mod_eq_of_lt (Nat.lt_of_le_pred (by decide) hl)

/-! ### The padded tail -/

theorem length_finalBytes (msg : Vector Word 16) (nb l : Nat) :
    (finalBytes msg nb l).length = 64 * finalBlockCount nb := by
  rw [finalBytes, List.length_map, List.length_range]

theorem finalBytes_getD (msg : Vector Word 16) (nb l : Nat) {k : Nat} (hk : k < 64 * finalBlockCount nb) :
    (finalBytes msg nb l).getD k 0 = finalByte msg nb l k := by
  rw [List.getD_eq_getElem _ _ (by rwa [length_finalBytes])]
  simp only [finalBytes, List.getElem_map, List.getElem_range]

/-- The length field ends the last block: for NB up to 55 it fits behind the message in one block. -/
theorem finalBlockCount_eq {nb : Nat} (hnb : nb ≤ 63) : 64 * finalBlockCount nb = nb + 1 + zeroCount nb + 8 := by
  have hz := zeroCount_cases nb
  rw [finalBlockCount]
  split <;> omega

theorem length_msgBytes (msg : Vector Word 16) (nb : Nat) : (msgBytes msg nb).length = nb := by
  rw [msgBytes, List.length_map, List.length_range]

theorem msgBytes_getD (msg : Vector Word 16) {nb k : Nat} (hk : k < nb) :
    (msgBytes msg nb).getD k 0 = msgByte msg k := by
  rw [List.getD_eq_getElem _ _ (by rwa [length_msgBytes])]
  simp only [msgBytes, List.getElem_map, List.getElem_range]

/-- SHA_FINAL's padded tail is the message bytes with the padding of R103, so it depends on no byte from NB on. -/
theorem finalBytes_eq_padded (msg : Vector Word 16) {nb : Nat} (hnb : nb ≤ 63) (l : Nat) :
    finalBytes msg nb l = padded (msgBytes msg nb) l := by
  have hmsg := length_msgBytes msg nb
  have hcount := finalBlockCount_eq hnb
  have hlen : (finalBytes msg nb l).length = (padded (msgBytes msg nb) l).length := by
    rw [length_finalBytes, length_padded, hmsg, hcount]
  refine List.ext_getElem hlen fun k hk hk' => ?_
  rw [← List.getD_eq_getElem _ 0 hk, ← List.getD_eq_getElem _ 0 hk']
  rw [length_finalBytes] at hk
  rw [finalBytes_getD msg nb l hk, finalByte]
  split_ifs with hlt heq hfield
  · rw [padded_getD_of_lt _ _ (by omega), msgBytes_getD msg hlt]
  · have h80 := padded_getD_length (msgBytes msg nb) l
    rw [hmsg] at h80
    rw [heq, h80]
  · have hbyte := padded_getD_lengthByte (msgBytes msg nb) l (j := k - (64 * finalBlockCount nb - 8)) (by omega)
    rw [hmsg, show nb + 1 + zeroCount nb + (k - (64 * finalBlockCount nb - 8)) = k by omega] at hbyte
    exact hbyte.symm
  · exact (padded_getD_zero _ _ (by omega) (by rw [hmsg]; omega)).symm

/-- A padded tail of 64 or 128 bytes is compressed block by block. -/
theorem compressBlocks_finalBytes (h : Vector Word 5) (msg : Vector Word 16) (nb l : Nat) :
    compressBlocks h (blocks (finalBytes msg nb l)) =
      if nb ≤ 55 then compress h (blockWords (finalBytes msg nb l))
      else compress (compress h (blockWords ((finalBytes msg nb l).take 64)))
        (blockWords ((finalBytes msg nb l).drop 64)) := by
  have hlen := length_finalBytes msg nb l
  rw [finalBlockCount] at hlen
  split at hlen
  next hnb =>
    rw [if_pos hnb, blocks_of_length_eq hlen]
    rfl
  next hnb =>
    have htake : ((finalBytes msg nb l).take 64).length = 64 := by rw [List.length_take]; omega
    have hdrop : ((finalBytes msg nb l).drop 64).length = 64 := by rw [List.length_drop]; omega
    have hblocks := blocks_append (p := (finalBytes msg nb l).take 64) (by omega) ((finalBytes msg nb l).drop 64)
    rw [List.take_append_drop, blocks_of_length_eq htake, blocks_of_length_eq hdrop] at hblocks
    rw [if_neg hnb, hblocks]
    rfl

/-- The blocks of a message compressed and then the padded tail of what is left make its digest (40_sha1.md R104,
R108). -/
theorem compressBlocks_finalBytes_eq_sha1 {pre : List Byte} (hpre : pre.length % 64 = 0) (msg : Vector Word 16)
    {nb : Nat} (hnb : nb ≤ 63) :
    compressBlocks (compressBlocks iv (blocks pre)) (blocks (finalBytes msg nb (8 * (pre.length + nb)))) =
      sha1 (pre ++ msgBytes msg nb) := by
  have hlen : (pre ++ msgBytes msg nb).length = pre.length + nb := by rw [List.length_append, length_msgBytes]
  have hzero : zeroCount (pre.length + nb) = zeroCount nb := by unfold zeroCount; omega
  have hpad : pad (pre ++ msgBytes msg nb) = pre ++ finalBytes msg nb (8 * (pre.length + nb)) := by
    rw [pad_eq_padded, finalBytes_eq_padded msg hnb, padded, padded, hlen, hzero, length_msgBytes]
    simp only [List.append_assoc]
  rw [sha1, hpad, blocks_append hpre, compressBlocks_append]

/-- SHA_FINAL finishes the digest of the whole blocks `pre`, already compressed, and of the tail in MSG. -/
theorem shaFinalExec_eq_sha1 {s : State} {pre tail : List Byte} (hpre : pre.length % 64 = 0) (htail : tail.length ≤ 63)
    (hfits : 8 * (pre ++ tail).length ≤ maxLen) (hh : s.h = compressBlocks iv (blocks pre))
    (hlen : s.len.toNat = 8 * pre.length) (hmsg : msgBytes s.msg tail.length = tail) :
    shaFinalExec tail.length s =
      .ok ((s.setH (sha1 (pre ++ tail))).setLen (BitVec.ofNat 64 (8 * (pre ++ tail).length))) := by
  have htotal : s.len.toNat + 8 * tail.length = 8 * (pre ++ tail).length := by rw [List.length_append]; omega
  have hdigest := compressBlocks_finalBytes_eq_sha1 hpre s.msg htail
  rw [hmsg, ← hh, ← List.length_append] at hdigest
  rw [shaFinalExec_of_le (htotal ▸ hfits), htotal, hdigest]

/-! ### The commands -/

/-- Settles O16: the completion of its two writes. -/
theorem shaInitStartsAMessage : Obligations.ShaInitStartsAMessage := by
  unfold Obligations.ShaInitStartsAMessage
  exact ⟨rfl, exec_eq .shaInit⟩

/-- Settles O17: the sum that the check admits is the 64-bit sum. -/
theorem shaBlockCompressesAndCounts : Obligations.ShaBlockCompressesAndCounts := by
  unfold Obligations.ShaBlockCompressesAndCounts
  refine ⟨rfl, fun s => ⟨fun hfits => ?_, fun hover => ?_⟩⟩
  · have hsum : s.len + 512 = BitVec.ofNat 64 (s.len.toNat + 512) := by
      rw [BitVec.ofNat_add, BitVec.ofNat_toNat, BitVec.setWidth_eq]
      rfl
    rw [exec_eq, commandExec, shaBlockExec_of_le hfits, hsum]
    rfl
  · rw [exec_eq, commandExec, shaBlockExec_of_lt hover]
    rfl

theorem decode_shaFinal_word : ∀ nb < 64, decode (BitVec.ofNat 32 (0x003 + 0x100 * nb)) = .ok (.shaFinal nb) := by
  decide

/-- Settles O18: the padded tail is `finalBytes`. -/
theorem shaFinalPadsAndCompresses : Obligations.ShaFinalPadsAndCompresses := by
  unfold Obligations.ShaFinalPadsAndCompresses
  refine fun nb hnb => ⟨decode_shaFinal_word nb (by omega), fun s => ⟨fun hover => ?_, fun hfits => ?_⟩⟩
  · rw [exec_eq, commandExec, shaFinalExec_of_lt hover]
    rfl
  · have hcount := finalBlockCount_eq hnb
    have hlen := length_finalBytes s.msg nb (s.len.toNat + 8 * nb)
    have hbyte {k : Nat} := finalBytes_getD s.msg nb (s.len.toNat + 8 * nb) (k := k)
    refine ⟨finalBytes s.msg nb (s.len.toNat + 8 * nb), ?_, fun k hk => ?_, ?_, fun k hk hk' => ?_,
      fun j hj => ?_, ?_⟩
    · rw [hlen, finalBlockCount]
      split <;> rfl
    · rw [hbyte (by omega), finalByte, if_pos hk, msgByte]
    · rw [hbyte (by omega), finalByte, if_neg (Nat.lt_irrefl nb), if_pos rfl]
    · rw [hbyte (by omega), finalByte, if_neg (by omega), if_neg (by omega), if_neg (by omega)]
    · rw [hbyte (by omega), finalByte, if_neg (by omega), if_neg (by omega), if_pos (by omega), hlen,
        Nat.add_sub_cancel_left, lengthByte_eq_extractLsb' _ hj]
    · rw [exec_eq, commandExec, shaFinalExec_of_le hfits, compressBlocks_finalBytes]
      rfl

/-- Settles O19: the padded tail ends the padding of the whole message. -/
theorem shaFinalFinishesTheDigest : Obligations.ShaFinalFinishesTheDigest := by
  unfold Obligations.ShaFinalFinishesTheDigest
  intro s pre tail hpre htail hfits hh hlen hmsg
  rw [← List.length_append] at hfits
  refine ⟨_, exec_eq .., ?_⟩
  rw [commandExec, shaFinalExec_eq_sha1 hpre htail hfits hh hlen hmsg]
  exact ⟨rfl, toNat_ofNat_of_le_maxLen hfits, rfl⟩

/-- Settles O20: the padded tail depends on the first NB bytes only. -/
theorem shaFinalIgnoresBytesFromNbOn : Obligations.ShaFinalIgnoresBytesFromNbOn := by
  unfold Obligations.ShaFinalIgnoresBytesFromNbOn
  intro nb hnb s m hm
  have htail (l : Nat) : finalBytes m nb l = finalBytes s.msg nb l := by
    rw [finalBytes_eq_padded m hnb, finalBytes_eq_padded s.msg hnb, hm]
  refine ⟨_, exec_eq .., ?_⟩
  rw [exec_eq, commandExec, commandExec]
  by_cases hfits : s.len.toNat + 8 * nb ≤ maxLen
  · rw [shaFinalExec_of_le hfits, shaFinalExec_of_le (s := { s with msg := m }) hfits, htail]
    rfl
  · rw [shaFinalExec_of_lt (Nat.lt_of_not_le hfits),
      shaFinalExec_of_lt (s := { s with msg := m }) (Nat.lt_of_not_le hfits)]
    rfl

/-- Settles O21: LEN is no part of its `Exec`. -/
theorem shaCompressLeavesLenAlone : Obligations.ShaCompressLeavesLenAlone := by
  unfold Obligations.ShaCompressLeavesLenAlone
  exact ⟨rfl, fun s l => exec_eq .shaCompress { s with len := l }⟩

end Sys2Proof.Machine
end

section
/-! PROOFS. The host's hash through the bus: MSG loaded word by word, each command issued and waited for, and the whole
sequence of `sha "p"` (spec/30_encoding.md R88; 40_sha1.md R110). -/

namespace Sys2Proof.Machine

/-! ### The message block as the host loads it -/

/-- A byte put below `x` moves its slices up by 8. -/
theorem extractLsb'_append_byte {n : Nat} (x : BitVec n) (y : Byte) (start : Nat) :
    (x ++ y).extractLsb' (start + 8) 8 = x.extractLsb' start 8 := by
  rw [BitVec.extractLsb'_append_eq_of_le (Nat.le_add_left 8 start), Nat.add_sub_cancel]

/-- Byte `j` of a packed word is the byte it was packed from (20_memory.md R59; 40_sha1.md R98). -/
theorem packWord_byte (p : List Byte) (i : Nat) {j : Nat} (hj : j < 4) :
    (packWord p i).extractLsb' (24 - 8 * j) 8 = p.getD (4 * i + j) 0 := by
  obtain rfl | rfl | rfl | rfl : j = 0 ∨ j = 1 ∨ j = 2 ∨ j = 3 := by omega
  all_goals
    simp only [packWord, Nat.reduceMul, Nat.reduceSub, extractLsb'_append_byte, BitVec.extractLsb'_append_eq_right,
      BitVec.extractLsb'_eq_self, Nat.add_zero]

theorem blockWords_getElem (p : List Byte) (i : Fin 16) : (blockWords p)[i.val] = packWord p i := by
  fin_cases i <;> rfl

/-- A message block with the words `is` of `p` stored in it, in order. -/
def storeWords (p : List Byte) (is : List (Fin 16)) (msg : Vector Word 16) : Vector Word 16 :=
  is.foldl (fun m i => m.set i.val (packWord p i.val)) msg

theorem storeWords_getElem {p : List Byte} {is : List (Fin 16)} {i : Fin 16} (msg : Vector Word 16)
    (hi : i ∈ is ∨ msg[i.val] = packWord p i) : (storeWords p is msg)[i.val] = packWord p i := by
  induction is generalizing msg with
  | nil => simpa [storeWords] using hi
  | cons j is ih =>
    refine ih _ ?_
    rw [Vector.getElem_set]
    by_cases hj : j = i
    · exact .inr (by rw [if_pos (congrArg Fin.val hj), hj])
    · rw [if_neg (Fin.val_ne_of_ne hj)]
      simpa [Ne.symm hj] using hi

/-- MSG after `ldmsg "p"` (30_encoding.md R88). -/
def loadMsg (p : List Byte) (msg : Vector Word 16) : Vector Word 16 :=
  storeWords p ((List.finRange 16).take ((p.length + 3) / 4)) msg

theorem loadMsg_getElem {p : List Byte} (msg : Vector Word 16) {i : Fin 16} (hi : 4 * i.val < p.length) :
    (loadMsg p msg)[i.val] = packWord p i := by
  refine storeWords_getElem msg (.inl (List.mem_take_iff_getElem.mpr ⟨i.val, ?_, List.getElem_finRange _⟩))
  rw [List.length_finRange]
  omega

/-- The bytes of a loaded message of at most 64 bytes are the message. -/
theorem msgBytes_loadMsg {p : List Byte} (hp : p.length ≤ 64) (msg : Vector Word 16) :
    msgBytes (loadMsg p msg) p.length = p := by
  refine List.ext_getElem (length_msgBytes _ _) fun k hk hk' => ?_
  have hword := loadMsg_getElem msg (i := ⟨k / 4, by omega⟩) (p := p) (by simp only; omega)
  rw [← List.getD_eq_getElem _ 0 hk, msgBytes_getD _ hk', msgByte,
    List.getD_eq_getElem _ _ (by rw [Vector.length_toList]; omega), Vector.getElem_toList, hword,
    packWord_byte p _ (Nat.mod_lt k (by omega)), Nat.div_add_mod, List.getD_eq_getElem _ _ hk']

/-- A whole block loaded is the words of the block. -/
theorem loadMsg_block {p : List Byte} (hp : p.length = 64) (msg : Vector Word 16) : loadMsg p msg = blockWords p :=
  Vector.ext fun i hi =>
    (loadMsg_getElem msg (i := ⟨i, hi⟩) (by simp only; omega)).trans (blockWords_getElem p ⟨i, hi⟩).symm

/-! ### Loading and commands as runs -/

theorem runs_wrMsg {s : State} (hb : s.status.busy = false) (p : List Byte) (i : Fin 16) :
    Runs [wrMsg p i] s ((s.setMsg (s.msg.set i.val (packWord p i.val))).respond .written) := by
  have h := Runs.access s ⟨Reg.offset (.msg i), .bytes 4, .write (packWord p i.val)⟩
  rwa [s.handleAccess_page_write (fun _ => rfl), State.writeReg_input s rfl, hb] at h

theorem runs_wrMsgs {s : State} (hb : s.status.busy = false) (p : List Byte) (is : List (Fin 16)) :
    ∃ rs, Runs (is.map (wrMsg p)) s ((s.setMsg (storeWords p is s.msg)).setResponses rs) := by
  induction is generalizing s with
  | nil => exact ⟨s.responses, Runs.nil s⟩
  | cons i is ih =>
    obtain ⟨rs, h⟩ := ih (s := (s.setMsg (s.msg.set i.val (packWord p i.val))).respond .written) hb
    exact ⟨rs, Runs.cons (runs_wrMsg hb p i) h⟩

theorem runs_ldmsg {s : State} (hb : s.status.busy = false) (p : List Byte) :
    ∃ rs, Runs (ldmsg p) s ((s.setMsg (loadMsg p s.msg)).setResponses rs) := runs_wrMsgs hb p _

/-- A SHA command that began in `s` has completed without error and the host's wait for it has ended in `t`, with `c` in
H and `l` in LEN; the operands and sticky ERR are those of `s`. -/
structure Hashed (s : State) (c : Vector Word 5) (l : Nat) (t : State) : Prop where
  h : t.h = c
  len : t.len.toNat = l
  idle : t.idle
  done : t.status.done = true
  errcode : t.status.errcode = 0
  lastRead : t.responses.head? = some (.data t.status.word)
  err : t.status.err = s.status.err
  rsaNw : t.rsaNw = s.rsaNw
  base : t.base = s.base
  exp : t.exp = s.exp
  mod : t.mod = s.mod
  res : t.res = s.res

theorem Hashed.trans {s t u : State} {c c' : Vector Word 5} {l l' : Nat} (h : Hashed s c l t)
    (h' : Hashed t c' l' u) : Hashed s c' l' u :=
  { h' with
    err := h'.err.trans h.err, rsaNw := h'.rsaNw.trans h.rsaNw, base := h'.base.trans h.base
    exp := h'.exp.trans h.exp, mod := h'.mod.trans h.mod, res := h'.res.trans h.res }

/-- A command that writes `c` to H and `l` to LEN, issued to an idle block and waited for. What it makes of H, LEN and
MSG is all that matters: it begins only after its acceptance. -/
theorem runs_shaCommand {s : State} (hs : s.idle) {i : Instr} (hi : i.wf = true) {c : Vector Word 5} {l : Nat}
    (hl : l ≤ maxLen) (hexec : ∀ u : State, u.h = s.h → u.len = s.len → u.msg = s.msg →
      commandExec i u = .ok ((u.setH c).setLen (BitVec.ofNat 64 l))) (polls : Nat) :
    ∃ t, Runs (cmdWait i polls) s t ∧ Hashed s c l t := by
  obtain ⟨hb, -⟩ := hs
  obtain ⟨rs, -, hruns⟩ := Runs.cmdWait hb i (decodeInvertsEncode i hi) polls
  rw [hexec (s.accept (encode i)) rfl rfl rfl] at hruns
  exact ⟨_, hruns, ⟨rfl, toNat_ofNat_of_le_maxLen hl, ⟨rfl, rfl⟩, rfl, rfl, rfl, rfl, rfl, rfl, rfl, rfl, rfl⟩⟩

/-- The same with `p` loaded into MSG first. -/
theorem runs_ldmsg_shaCommand {s : State} (hs : s.idle) (p : List Byte) {i : Instr} (hi : i.wf = true)
    {c : Vector Word 5} {l : Nat} (hl : l ≤ maxLen)
    (hexec : ∀ u : State, u.h = s.h → u.len = s.len → u.msg = loadMsg p s.msg →
      commandExec i u = .ok ((u.setH c).setLen (BitVec.ofNat 64 l))) (polls : Nat) :
    ∃ t, Runs (ldmsg p ++ cmdWait i polls) s t ∧ Hashed s c l t := by
  have ⟨hb, _⟩ := hs
  obtain ⟨rs, hload⟩ := runs_ldmsg hb p
  obtain ⟨t, ht, hhash⟩ := runs_shaCommand (s := (s.setMsg (loadMsg p s.msg)).setResponses rs) hs hi hl hexec polls
  exact ⟨t, hload.append ht, { hhash with }⟩

/-- SHA_INIT (40_sha1.md R106). -/
theorem runs_shaInit {s : State} (hs : s.idle) (polls : Nat) :
    ∃ t, Runs (cmdWait .shaInit polls) s t ∧ Hashed s iv 0 t :=
  runs_shaCommand hs rfl (Nat.zero_le _) (fun _ _ _ _ => rfl) polls

/-- A block of 64 bytes loaded and compressed (40_sha1.md R107). -/
theorem runs_shaBlock {s : State} (hs : s.idle) {p : List Byte} (hp : p.length = 64)
    (hfits : s.len.toNat + 512 ≤ maxLen) (polls : Nat) :
    ∃ t, Runs (ldmsg p ++ cmdWait .shaBlock polls) s t ∧
      Hashed s (compress s.h (blockWords p)) (s.len.toNat + 512) t := by
  refine runs_ldmsg_shaCommand hs p rfl hfits (fun u hh hlen hmsg => ?_) polls
  rw [loadMsg_block hp] at hmsg
  rw [commandExec, shaBlockExec_of_le (hlen ▸ hfits), hh, hlen, hmsg]

/-- The tail of a message, after whole blocks `pre` of it, loaded and finished (40_sha1.md R108). -/
theorem runs_shaFinal {s : State} (hs : s.idle) {pre tail : List Byte} (hpre : pre.length % 64 = 0)
    (htail : tail.length ≤ 63) (hh : s.h = compressBlocks iv (blocks pre)) (hlen : s.len.toNat = 8 * pre.length)
    (hfits : 8 * (pre ++ tail).length ≤ maxLen) (polls : Nat) :
    ∃ t, Runs (ldmsg tail ++ cmdWait (.shaFinal tail.length) polls) s t ∧
      Hashed s (sha1 (pre ++ tail)) (8 * (pre ++ tail).length) t := by
  refine runs_ldmsg_shaCommand (i := .shaFinal tail.length) hs tail (decide_eq_true htail) hfits
    (fun u huh hulen hmsg => ?_) polls
  have hbytes := msgBytes_loadMsg (Nat.le_succ_of_le htail) s.msg
  rw [← hmsg] at hbytes
  exact shaFinalExec_eq_sha1 hpre htail hfits (huh.trans hh) (hulen ▸ hlen) hbytes

/-! ### The whole sequence -/

theorem length_blockOf {p : List Byte} {j : Nat} (hj : j < p.length / 64) : (blockOf p j).length = 64 := by
  rw [blockOf, List.length_take, List.length_drop]
  omega

theorem shaFullBlocks_succ (polls : Nat → Nat) (p : List Byte) (k : Nat) :
    shaFullBlocks polls p (k + 1) =
      shaFullBlocks polls p k ++ (ldmsg (blockOf p k) ++ cmdWait .shaBlock (polls (k + 1))) := by
  rw [shaFullBlocks, List.range_succ, List.flatMap_append, List.flatMap_singleton, shaFullBlocks]

/-- The first `k` blocks of a message compressed one by one. -/
theorem runs_shaFullBlocks {p : List Byte} (hp : 8 * p.length ≤ maxLen) (polls : Nat → Nat) {s₀ s : State}
    (hs : Hashed s₀ iv 0 s) {k : Nat} (hk : k ≤ p.length / 64) :
    ∃ t, Runs (shaFullBlocks polls p k) s t ∧
      Hashed s₀ (compressBlocks iv ((List.range k).map (blockOf p))) (512 * k) t := by
  induction k with
  | zero => exact ⟨s, Runs.nil s, hs⟩
  | succ k ih =>
    obtain ⟨t, ht, hhash⟩ := ih (by omega)
    have hfits : t.len.toNat + 512 ≤ maxLen := by rw [hhash.len]; omega
    obtain ⟨u, hu, hblock⟩ := runs_shaBlock hhash.idle (length_blockOf hk) hfits (polls (k + 1))
    rw [hhash.h, hhash.len] at hblock
    rw [shaFullBlocks_succ, List.range_succ, List.map_append, compressBlocks_append]
    exact ⟨u, Runs.append ht hu, hhash.trans hblock⟩

/-- `sha "p"` from an idle block leaves the digest of `p` in H. -/
theorem runs_sha {s : State} (hs : s.idle) {p : List Byte} (hp : 8 * p.length ≤ maxLen) (polls : Nat → Nat) :
    ∃ t, Runs (sha polls p) s t ∧ Hashed s (sha1 p) (8 * p.length) t := by
  have hpre : (p.take (64 * (p.length / 64))).length = 64 * (p.length / 64) := by rw [List.length_take]; omega
  have htail : (blockOf p (p.length / 64)).length = p.length % 64 := by
    rw [blockOf, List.length_take, List.length_drop]
    omega
  have hsplit : p.take (64 * (p.length / 64)) ++ blockOf p (p.length / 64) = p := by
    rw [blockOf, List.take_of_length_le (l := p.drop _) (by rw [List.length_drop]; omega), List.take_append_drop]
  have hblocks : blocks (p.take (64 * (p.length / 64))) = (List.range (p.length / 64)).map (blockOf p) := by
    have happend := blocks_append (p := p.take (64 * (p.length / 64))) (by omega) (blockOf p (p.length / 64))
    rw [hsplit, blocks_of_length_lt (p := blockOf p _) (by omega), List.append_nil] at happend
    exact happend.symm
  obtain ⟨t, ht, hinit⟩ := runs_shaInit hs (polls 0)
  obtain ⟨u, hu, hfull⟩ := runs_shaFullBlocks hp polls hinit le_rfl
  obtain ⟨v, hv, hfinal⟩ := runs_shaFinal hfull.idle (by omega) (by omega) (hblocks ▸ hfull.h)
    (by rw [hfull.len]; omega) (hsplit.symm ▸ hp) (polls (p.length / 64 + 1))
  rw [hsplit] at hfinal
  rw [htail] at hv
  refine ⟨v, ?_, hfull.trans hfinal⟩
  rw [sha, List.append_assoc]
  exact (ht.append hu).append hv

/-- Settles O26: the sequence's parts run one after the other. -/
theorem commandSequenceComputesTheDigest : Obligations.CommandSequenceComputesTheDigest := by
  unfold Obligations.CommandSequenceComputesTheDigest
  intro p polls s rest hp _ hs hevents
  obtain ⟨t, hruns, ht⟩ := runs_sha hs hp polls
  have hrun := hruns rest
  rw [← hevents] at hrun
  exact ⟨t.setEvents rest, hrun, ht.h, ht.len, ht.errcode, ht.done, ht.idle, rfl, ht.base, ht.exp, ht.mod, ht.res⟩

end Sys2Proof.Machine
end

section
/-! PROOFS. The sequencer with a correct multiplier (spec/41_modexp.md R128, R131, R136): its result, and the operands
of its calls. -/

namespace Sys2Proof.Machine

/-- Settles O28: with no exponent bit left to come the accumulator is the whole power, which the operand's words
hold. -/
theorem sequencerComputesThePower : Obligations.SequencerComputesThePower := by
  unfold Obligations.SequencerComputesThePower
  intro mm nw b e n hmm hn hb hnw
  have hlt : b ^ e % n < n := Nat.mod_lt _ (by omega)
  rw [modExpSeq_eq_accumulator, accumulator_eq_pow e hmm hn hb (Nat.zero_le _), pow_zero, Nat.div_one,
    Nat.mod_eq_of_lt (hlt.trans hnw)]

/-- One turn of the loop calls a correct multiplier on operands below the modulus only. -/
theorem bitCalls_below {mm : Nat → Nat → Nat → Nat} {b e n i r : Nat} (hmm : MMCorrect mm) (hn : n % 2 = 1)
    (hb : b < n) (hr : r < n) {c : MmCall} (hc : c ∈ bitCalls mm b e n i r) : c.n = n ∧ c.x < n ∧ c.y < n := by
  have hsquare : mm r r n < n := by
    rw [hmm r r n hn hr hr]
    exact Nat.mod_lt _ (by omega)
  have hcase : c = ⟨r, r, n⟩ ∨ c = ⟨mm r r n, b, n⟩ := by
    unfold bitCalls at hc
    split at hc
    · simpa using hc
    · exact .inl (List.mem_singleton.mp hc)
  obtain rfl | rfl := hcase
  · exact ⟨rfl, hr, hr⟩
  · exact ⟨rfl, hsquare, hb⟩

/-- Settles O31: the accumulator is a power of B modulo N at every call. -/
theorem sequencerCallsStayBelowTheModulus : Obligations.SequencerCallsStayBelowTheModulus := by
  unfold Obligations.SequencerCallsStayBelowTheModulus
  intro mm b e n hmm hn hb c hc
  rw [modExpCalls_eq_flatMap, List.mem_flatMap] at hc
  obtain ⟨i, hi, hcall⟩ := hc
  rw [List.mem_reverse, List.mem_range] at hi
  refine bitCalls_below hmm hn hb ?_ hcall
  rw [accumulator_eq_pow e hmm hn hb hi]
  exact Nat.mod_lt _ (by omega)

end Sys2Proof.Machine
end

section
/-! PROOFS. MODEXP, DIGEST_TO_BASE and CMP_DIGEST (spec/41_modexp.md R132 to R134): their completions, and the integers
that the operand memories hold after them. -/

namespace Sys2Proof.Machine

/-! ### Integers in operand memories -/

theorem Memory.fits.val_lt {nw : Nat} {m : Memory} (h : m.fits nw) : m.val < 2 ^ (32 * nw) :=
  h.val_eq_wordSum ▸ wordSum_lt m.read nw

/-- Memories of one width with the same integer are the same memory (20_memory.md R60). -/
theorem Memory.fits.val_inj {nw : Nat} {m m' : Memory} (h : m.fits nw) (h' : m'.fits nw) :
    m.val = m'.val ↔ m = m' := by
  refine ⟨fun hval => h.eq_of_read_eq h' fun i _ => ?_, congrArg Memory.val⟩
  rw [← h.word_val, hval, h'.word_val]

/-- An integer that the words hold is loaded as itself. -/
theorem Memory.val_ofNat {nw n : Nat} (hn : n < 2 ^ (32 * nw)) : (Memory.ofNat nw n).val = n := by
  refine Nat.eq_of_testBit_eq fun k => ?_
  have hj : k % 32 < 32 := Nat.mod_lt k (by omega)
  have hbit : (Memory.ofNat nw n).val.testBit k = (Memory.read (Memory.ofNat nw n) (k / 32)).getLsbD (k % 32) := by
    rw [← (Memory.fits_ofNat nw n).testBit_val (k / 32) hj, Nat.div_add_mod]
  rw [hbit, Memory.read_ofNat]
  split
  next => rw [BitVec.getLsbD_ofNat, decide_eq_true hj, Bool.true_and, Nat.testBit_div_two_pow, Nat.add_comm,
    Nat.div_add_mod]
  next hi =>
    have hpow : 2 ^ (32 * nw) ≤ 2 ^ k := Nat.pow_le_pow_right (by decide) (by omega)
    rw [Nat.testBit_lt_two_pow (hn.trans_le hpow), BitVec.ofNat_eq_ofNat, BitVec.getLsbD_zero]

theorem modExpSeq_lt (mm : Nat → Nat → Nat → Nat) (nw b e n : Nat) : modExpSeq mm nw b e n < 2 ^ (32 * nw) :=
  Nat.mod_lt _ (Nat.two_pow_pos _)

/-! ### MODEXP -/

section Modexp

variable {mm : Nat → Nat → Nat → Nat} {s : State}

theorem modexpExec_of_zero (h0 : s.mod.val = 0) : modexpExec mm s = .error .modZero := if_pos h0

theorem modexpExec_of_even (h0 : s.mod.val ≠ 0) (heven : s.mod.val % 2 = 0) : modexpExec mm s = .error .modEven := by
  rw [modexpExec, if_neg h0, if_pos heven]

theorem modexpExec_of_le (hodd : s.mod.val % 2 = 1) (hle : s.mod.val ≤ s.base.val) :
    modexpExec mm s = .error .baseRange := by
  rw [modexpExec, if_neg (by omega), if_neg (by omega), if_pos hle]

theorem modexpExec_of_lt (hodd : s.mod.val % 2 = 1) (hlt : s.base.val < s.mod.val) :
    modexpExec mm s =
      .ok (s.setRes (Memory.ofNat s.rsaNw (modExpSeq mm s.rsaNw s.base.val s.exp.val s.mod.val))) := by
  rw [modexpExec, if_neg (by omega), if_neg (by omega), if_neg (by omega)]

end Modexp

/-- Settles O27: each check by its own case of `modexpExec`, and the result loaded into RES. -/
theorem modexpChecksThenWritesRes : Obligations.ModexpChecksThenWritesRes := by
  unfold Obligations.ModexpChecksThenWritesRes
  refine ⟨rfl, fun s => ⟨fun h0 => ?_, fun h0 heven => ?_, fun hodd hle => ?_, fun hodd hlt => ?_⟩⟩
  · rw [exec_eq, commandExec, modexpExec_of_zero h0]
    rfl
  · rw [exec_eq, commandExec, modexpExec_of_even h0 heven]
    rfl
  · rw [exec_eq, commandExec, modexpExec_of_le hodd hle]
    rfl
  · refine ⟨_, Memory.fits_ofNat s.rsaNw _, fun i hi => by rw [Memory.read_ofNat, if_pos hi], ?_⟩
    rw [exec_eq, commandExec, modexpExec_of_lt hodd hlt]
    rfl

/-- Settles O29: the power is below MOD, which the words of RES hold. -/
theorem modexpLeavesThePowerInRes : Obligations.ModexpLeavesThePowerInRes := by
  unfold Obligations.ModexpLeavesThePowerInRes
  refine ⟨exec_eq .modexp, fun mm s hmm hs hodd hlt => ?_⟩
  rw [modexpExec_of_lt hodd hlt]
  refine ⟨?_, rfl⟩
  rw [State.complete_ok, State.succeed_res, State.setRes_res, Memory.val_ofNat (modExpSeq_lt ..)]
  exact sequencerComputesThePower mm _ _ _ _ hmm hodd hlt hs.modFits.val_lt

/-! ### The digest as an operand -/

/-- The words of the digest's integer, least significant first (20_memory.md R61). -/
def digestWords (h : Vector Word 5) : List Word := [h[4], h[3], h[2], h[1], h[0]]

theorem fits_digestWords {nw : Nat} (hnw : 5 ≤ nw) (h : Vector Word 5) : (Memory.ofWords (digestWords h)).fits nw :=
  Memory.fits_ofWords _ hnw

theorem digestValue_eq_wordSum (h : Vector Word 5) :
    digestValue h = wordSum (Memory.ofWords (digestWords h)).read 5 := by
  simp only [wordSum, Finset.sum_range_succ, Finset.sum_range_zero, Memory.read_ofWords, digestWords,
    List.getD_cons_zero, List.getD_cons_succ, digestValue]
  omega

theorem val_digestWords (h : Vector Word 5) : (Memory.ofWords (digestWords h)).val = digestValue h := by
  rw [(fits_digestWords le_rfl h).val_eq_wordSum, digestValue_eq_wordSum]

/-- A memory holds the digest's words and zeros above them exactly when it is the digest loaded. -/
theorem eq_digestWords_iff {m : Memory} (hm : m.wf = true) (h : Vector Word 5) :
    m = Memory.ofWords (digestWords h) ↔ m.read 0 = h[4] ∧ m.read 1 = h[3] ∧ m.read 2 = h[2] ∧ m.read 3 = h[1] ∧
      m.read 4 = h[0] ∧ ∀ i, 5 ≤ i → m.read i = 0 := by
  constructor
  · rintro rfl
    simp only [Memory.read_ofWords]
    exact ⟨rfl, rfl, rfl, rfl, rfl, fun i hi => List.getD_eq_default _ _ hi⟩
  · rintro ⟨h0, h1, h2, h3, h4, hzero⟩
    refine Memory.eq_of_read_eq hm (fits_digestWords le_rfl h).1 fun i => ?_
    rw [Memory.read_ofWords]
    match i with
    | 0 => exact h0
    | 1 => exact h1
    | 2 => exact h2
    | 3 => exact h3
    | 4 => exact h4
    | i + 5 => exact hzero (i + 5) (by omega)

/-- Settles O32: the memory loaded with the digest's words. -/
theorem digestToBaseLoadsTheDigest : Obligations.DigestToBaseLoadsTheDigest := by
  unfold Obligations.DigestToBaseLoadsTheDigest
  refine ⟨rfl, fun s hnw => ⟨Memory.ofWords (digestWords s.h), fits_digestWords hnw s.h, ?_⟩⟩
  obtain ⟨h0, h1, h2, h3, h4, hzero⟩ := (eq_digestWords_iff (fits_digestWords hnw s.h).1 s.h).mp rfl
  exact ⟨h0, h1, h2, h3, h4, hzero, val_digestWords s.h, digestValue_eq_wordSum s.h ▸ wordSum_lt _ 5,
    exec_eq .digestToBase s⟩

/-- Settles O33: the completion of its one write. -/
theorem cmpDigestSetsMatch : Obligations.CmpDigestSetsMatch := by
  unfold Obligations.CmpDigestSetsMatch
  exact ⟨rfl, exec_eq .cmpDigest⟩

/-- Settles O34: canonical memories of one width with the same value hold the same words. -/
theorem matchMeansEveryWordAgrees : Obligations.MatchMeansEveryWordAgrees := by
  unfold Obligations.MatchMeansEveryWordAgrees
  intro s t hs ht
  obtain rfl := exec_next ht
  have hmatch : (s.complete (commandExec .cmpDigest s)).status.cmpMatch = decide (s.res.val = digestValue s.h) := rfl
  rw [hmatch, decide_eq_true_iff, ← val_digestWords, hs.resFits.val_inj (fits_digestWords hs.widthLow s.h),
    eq_digestWords_iff hs.resFits.1]

end Sys2Proof.Machine
end

section
/-! PROOFS. The SHA commands and MODEXP share no register but STATUS, so their order does not matter (spec/41_modexp.md
R135). -/

namespace Sys2Proof.Machine

/-- The commands of 40_sha1.md. -/
def isShaCommand : Instr → Bool
  | .shaInit | .shaBlock | .shaFinal _ | .shaCompress => true
  | .modexp | .digestToBase | .cmpDigest => false

/-- A SHA command depends on H, LEN and MSG only, and writes H and LEN only. -/
theorem commandExec_sha_congr {i : Instr} (hi : isShaCommand i = true) {s u : State} (hh : u.h = s.h)
    (hlen : u.len = s.len) (hmsg : u.msg = s.msg) :
    commandExec i u = (commandExec i s).map fun t => (u.setH t.h).setLen t.len := by
  cases i with
  | modexp | digestToBase | cmpDigest => cases hi
  | shaInit => rfl
  | shaCompress =>
    rw [commandExec, commandExec, shaCompressExec, shaCompressExec, hh, hmsg]
    simp only [Except.map, State.setH_h, State.setH_len, ← hlen]
    rfl
  | shaBlock =>
    simp only [commandExec, shaBlockExec, hh, hlen, hmsg]
    split <;> rfl
  | shaFinal nb =>
    simp only [commandExec, shaFinalExec, hh, hlen, hmsg]
    split <;> rfl

/-- MODEXP depends on the operand width and the operands only, and writes RES only. -/
theorem modexpExec_congr (mm : Nat → Nat → Nat → Nat) {s u : State} (hnw : u.rsaNw = s.rsaNw)
    (hbase : u.base = s.base) (hexp : u.exp = s.exp) (hmod : u.mod = s.mod) :
    modexpExec mm u = (modexpExec mm s).map fun t => u.setRes t.res := by
  simp only [modexpExec, hnw, hbase, hexp, hmod]
  split_ifs <;> rfl

/-- What a SHA command leaves but for STATUS, as its H and LEN from any state with the same H, LEN and MSG. -/
theorem complete_sha_setStatus {i : Instr} (hi : isShaCommand i = true) {s u : State} (hh : u.h = s.h)
    (hlen : u.len = s.len) (hmsg : u.msg = s.msg) (f : Status) :
    (u.complete (commandExec i u)).setStatus f =
      (((u.setH (s.complete (commandExec i s)).h).setLen (s.complete (commandExec i s)).len).setPend none).setStatus
        f := by
  rw [commandExec_sha_congr hi hh hlen hmsg]
  cases commandExec i s with
  | error e =>
    rw [State.complete_error, State.raiseCmdError_h, State.raiseCmdError_len, ← hh, ← hlen]
    rfl
  | ok t => rfl

/-- What MODEXP leaves but for STATUS, as its RES from any state with the same operands and RES. -/
theorem complete_modexp_setStatus {s u : State} (hnw : u.rsaNw = s.rsaNw) (hbase : u.base = s.base)
    (hexp : u.exp = s.exp) (hmod : u.mod = s.mod) (hres : u.res = s.res) (f : Status) :
    (u.complete (commandExec .modexp u)).setStatus f =
      ((u.setRes (s.complete (commandExec .modexp s)).res).setPend none).setStatus f := by
  simp only [commandExec]
  rw [modexpExec_congr Config.mm hnw hbase hexp hmod]
  cases modexpExec Config.mm s with
  | error e =>
    rw [State.complete_error, State.raiseCmdError_res, ← hres]
    rfl
  | ok t => rfl

/-- Settles O35: each command leaves the registers that the other one reads. -/
theorem shaAndModexpCommute : Obligations.ShaAndModexpCommute := by
  unfold Obligations.ShaAndModexpCommute
  intro i s hi
  have hsha : isShaCommand i = true := by obtain rfl | rfl | rfl | ⟨nb, rfl⟩ := hi <;> rfl
  refine ⟨_, _, _, _, exec_eq i s, exec_eq .modexp _, exec_eq .modexp s, exec_eq i _, ?_⟩
  have hsha1 := complete_sha_setStatus hsha (s := s) rfl rfl rfl s.status
  have hmod1 := complete_modexp_setStatus (s := s) rfl rfl rfl rfl rfl s.status
  generalize ha : s.complete (commandExec i s) = a at *
  generalize hc : s.complete (commandExec .modexp s) = c at *
  have hmod2 := complete_modexp_setStatus (s := s) (u := a) (congrArg State.rsaNw hsha1 :)
    (congrArg State.base hsha1 :) (congrArg State.exp hsha1 :) (congrArg State.mod hsha1 :)
    (congrArg State.res hsha1 :) s.status
  have hsha2 := complete_sha_setStatus hsha (s := s) (u := c) (congrArg State.h hmod1 :) (congrArg State.len hmod1 :)
    (congrArg State.msg hmod1 :) s.status
  rw [hc] at hmod2
  rw [ha] at hsha2
  have hboth : (a.complete (commandExec .modexp a)).setStatus s.status =
      (c.complete (commandExec i c)).setStatus s.status := by
    calc (a.complete (commandExec .modexp a)).setStatus s.status
        = ((a.setStatus s.status).setRes c.res).setPend none := hmod2
      _ = (((c.setStatus s.status).setH a.h).setLen a.len).setPend none := by rw [hsha1, hmod1]; rfl
      _ = (c.complete (commandExec i c)).setStatus s.status := hsha2.symm
  exact ⟨(congrArg State.h hboth :), (congrArg State.len hboth :), (congrArg State.res hboth :), hboth⟩

end Sys2Proof.Machine
end

section
/-! PROOFS. The host's stages and what the stages of the source's operations do: stages that end with ERR = 0, operands
loaded, MODEXP, DIGEST_TO_BASE and CMP_DIGEST issued and waited for, RES read back (spec/30_encoding.md R88;
41_modexp.md R135). -/

namespace Sys2Proof.Machine

/-! ### Stages -/

/-- What is left of a sequence runs on from where its first part ended. -/
theorem Runs.cancel {l l' : List Event} {s t u : State} (h : Runs l s t) (h' : Runs (l ++ l') s u) : Runs l' t u := by
  intro rest
  have hrun := h' rest
  rwa [List.length_append, List.append_assoc, run_add _ _ _ (h (l' ++ rest))] at hrun

theorem Runs.runEvents_setEvents {l : List Event} {s t : State} (h : Runs l s t) (es : List Event) :
    (s.setEvents es).runEvents l = .next (t.setEvents es) := h es

theorem State.lastReadBit_of_head? {s : State} {v : Word} (h : s.responses.head? = some (.data v)) (b : Nat) :
    s.lastReadBit b = v.getLsbD b := by
  obtain ⟨rs, hrs⟩ := List.head?_eq_some_iff.mp h
  rw [State.lastReadBit, hrs]

/-- A wait's last read shows ERR in bit 2 (10_state.md R23). -/
theorem State.lastReadBit_err {s : State} (h : s.responses.head? = some (.data s.status.word)) :
    s.lastReadBit 2 = s.status.err := by
  rw [State.lastReadBit_of_head? h, Status.word_err]

/-- The stages `ls` take the block from `s` to `t`, and the host finds ERR = 0 at the end of each (41_modexp.md
R135). -/
inductive StagesGo : List (List Event) → State → State → Prop where
  | nil (s : State) : StagesGo [] s s
  | cons {l : List Event} {ls : List (List Event)} {s t u : State} :
      Runs l s t → t.lastReadBit 2 = false → StagesGo ls t u → StagesGo (l :: ls) s u

theorem StagesGo.one {l : List Event} {s t : State} (h : Runs l s t) (he : t.lastReadBit 2 = false) :
    StagesGo [l] s t := .cons h he (.nil t)

theorem StagesGo.append {ls ls' : List (List Event)} {s t u : State} (h : StagesGo ls s t) (h' : StagesGo ls' t u) :
    StagesGo (ls ++ ls') s u := by
  induction h with
  | nil => exact h'
  | cons hl he _ ih => exact .cons hl he (ih h')

theorem StagesGo.runs {ls : List (List Event)} {s t : State} (h : StagesGo ls s t) : Runs ls.flatten s t := by
  induction h with
  | nil => exact Runs.nil _
  | cons hl _ _ ih => exact hl.append ih

/-- The host goes through such stages to those behind them. -/
theorem StagesGo.runStages {ls : List (List Event)} {s t : State} (h : StagesGo ls s t) (ls' : List (List Event))
    (last : List Event) (es : List Event) :
    runStages (ls ++ ls') last (s.setEvents es) = Machine.runStages ls' last (t.setEvents es) := by
  induction h with
  | nil => rfl
  | cons hl he _ ih => exact (runStages_go (hl.runEvents_setEvents es) he).trans ih

/-- A sequence none of whose waits finds ERR = 1 completes, and all its events run. -/
theorem HostSequence.run_completed {q : HostSequence} {s t u : State} (hstages : StagesGo q.stages s t)
    (hlast : Runs q.last t u) :
    q.run s = .next (.completed (u.setEvents s.events)) ∧ s.runEvents q.events = .next (u.setEvents s.events) := by
  refine ⟨?_, (hstages.runs.append hlast).runEvents⟩
  have hgo := hstages.runStages [] q.last s.events
  rw [List.append_nil] at hgo
  exact hgo.trans (runStages_last (hlast.runEvents_setEvents s.events))

/-- A sequence stops at the first stage whose wait finds ERR = 1, and the events up to that wait run. -/
theorem HostSequence.run_stopped {q : HostSequence} {ls ls' : List (List Event)} {l : List Event} {s t u : State}
    (hq : q.stages = ls ++ l :: ls') (hstages : StagesGo ls s t) (hl : Runs l t u) (he : u.lastReadBit 2 = true) :
    q.run s = .next (.stopped (u.setEvents s.events)) ∧
      s.runEvents (ls ++ [l]).flatten = .next (u.setEvents s.events) := by
  constructor
  · rw [HostSequence.run, hq]
    exact (hstages.runStages (l :: ls') q.last s.events).trans (runStages_stop (hl.runEvents_setEvents s.events) he)
  · rw [List.flatten_append, List.flatten_singleton]
    exact (hstages.runs.append hl).runEvents

/-! ### The stages of the hash -/

theorem Hashed.lastReadBit_err {s t : State} {c : Vector Word 5} {l : Nat} (h : Hashed s c l t)
    (he : s.status.err = false) : t.lastReadBit 2 = false :=
  (State.lastReadBit_err h.lastRead).trans (h.err.trans he)

/-- The stage of block `j` of `sha "p"` (30_encoding.md R88). -/
def shaBlockStage (polls : Nat → Nat) (p : List Byte) (j : Nat) : List Event :=
  ldmsg (blockOf p j) ++ cmdWait .shaBlock (polls (j + 1))

theorem stagesGo_shaFullBlocks {p : List Byte} (hp : 8 * p.length ≤ maxLen) (polls : Nat → Nat) {s₀ s : State}
    (he : s₀.status.err = false) (hs : Hashed s₀ iv 0 s) {k : Nat} (hk : k ≤ p.length / 64) :
    ∃ t, StagesGo ((List.range k).map (shaBlockStage polls p)) s t ∧ Runs (shaFullBlocks polls p k) s t := by
  induction k with
  | zero => exact ⟨s, .nil s, Runs.nil s⟩
  | succ k ih =>
    obtain ⟨t, hgo, ht⟩ := ih (by omega)
    obtain ⟨u, hu, hhash⟩ := runs_shaFullBlocks hp polls hs hk
    have hstage : Runs (shaBlockStage polls p k) t u := ht.cancel (shaFullBlocks_succ polls p k ▸ hu)
    rw [List.range_succ, List.map_append]
    exact ⟨u, hgo.append (.one hstage (hhash.lastReadBit_err he)), hu⟩

/-- With ERR = 0 the host goes through every stage of `sha "p"`. -/
theorem stagesGo_sha {s : State} (hs : s.idle) (he : s.status.err = false) {p : List Byte}
    (hp : 8 * p.length ≤ maxLen) (polls : Nat → Nat) :
    ∃ t, StagesGo (shaStages polls p) s t ∧ Hashed s (sha1 p) (8 * p.length) t := by
  obtain ⟨t, ht, hinit⟩ := runs_shaInit hs (polls 0)
  obtain ⟨u, hgo, hu⟩ := stagesGo_shaFullBlocks hp polls he hinit le_rfl
  obtain ⟨v, hv, hhash⟩ := runs_sha hs hp polls
  rw [sha, List.append_assoc] at hv
  have hfinal := (ht.append hu).cancel hv
  have hstages := StagesGo.cons ht (hinit.lastReadBit_err he) (hgo.append (.one hfinal (hhash.lastReadBit_err he)))
  exact ⟨v, hstages, hhash⟩

/-! ### Operands as the host loads them -/

/-- The operand memories that the host loads (10_state.md R30 to R32). -/
inductive Operand where
  | base
  | exp
  | mod

namespace Operand

/-- Word `i` of the operand, as a register. -/
def reg : Operand → Nat → Reg
  | .base => .base
  | .exp => .exp
  | .mod => .mod

/-- What the operand holds. -/
def get : Operand → State → Memory
  | .base => State.base
  | .exp => State.exp
  | .mod => State.mod

/-- The state with the operand replaced. -/
def set : Operand → State → Memory → State
  | .base => State.setBase
  | .exp => State.setExp
  | .mod => State.setMod

variable (o : Operand)

theorem isInput_reg (i : Nat) : (o.reg i).isInput = true := by cases o <;> rfl

theorem mapped_reg {nw i : Nat} (hi : i < nw) : (o.reg i).mapped nw = true := by
  cases o <;> exact decide_eq_true hi

theorem storeInput_reg (s : State) (i : Nat) (v : Word) :
    s.storeInput (o.reg i) v = o.set s ((o.get s).write i v) := by cases o <;> rfl

@[simp] theorem set_rsaNw (s : State) (m : Memory) : (o.set s m).rsaNw = s.rsaNw := by cases o <;> rfl

@[simp] theorem set_status (s : State) (m : Memory) : (o.set s m).status = s.status := by cases o <;> rfl

theorem set_get (s : State) : o.set s (o.get s) = s := by cases o <;> rfl

/-- A word written behind others, with what the bus answers: only the last memory and the last responses matter. -/
theorem set_respond_set (s : State) (m m' : Memory) (r : Response) (rs : List Response) :
    (o.set ((o.set s m).respond r) m').setResponses rs = (o.set s m').setResponses rs := by cases o <;> rfl

theorem get_set_respond (s : State) (m : Memory) (r : Response) : o.get ((o.set s m).respond r) = m := by
  cases o <;> rfl

end Operand

/-- Word `i` of an integer (20_memory.md R60). -/
def natWord (n i : Nat) : Word := BitVec.ofNat 32 (n / 2 ^ (32 * i))

/-- A memory with the words `is` of an integer stored in it, in order. -/
def Memory.storeNat (n : Nat) (is : List Nat) (m : Memory) : Memory := is.foldl (fun m i => m.write i (natWord n i)) m

theorem Memory.fits_storeNat {nw : Nat} (n : Nat) {is : List Nat} (his : ∀ i ∈ is, i < nw) {m : Memory}
    (hm : m.fits nw) : (m.storeNat n is).fits nw := by
  induction is generalizing m with
  | nil => exact hm
  | cons i is ih =>
    rw [List.forall_mem_cons] at his
    exact ih his.2 (Memory.fits_write hm his.1 _)

theorem Memory.read_storeNat (n : Nat) {is : List Nat} {i : Nat} {m : Memory} (hm : m.wf = true)
    (hi : i ∈ is ∨ m.read i = natWord n i) : (m.storeNat n is).read i = natWord n i := by
  induction is generalizing m with
  | nil => simpa [Memory.storeNat] using hi
  | cons j is ih =>
    refine ih (Memory.wfFrom_write hm (Nat.zero_le j) _) ?_
    by_cases hj : i = j
    · exact .inr (by rw [hj, Memory.read_write_same hm])
    · rw [Memory.read_write_other _ hj]
      simpa [hj] using hi

/-- All words of an integer stored are the integer loaded, whatever the memory held. -/
theorem Memory.storeNat_range {nw : Nat} (n : Nat) {m : Memory} (hm : m.fits nw) :
    m.storeNat n (List.range nw) = Memory.ofNat nw n := by
  have hfits := Memory.fits_storeNat n (is := List.range nw) (fun i hi => List.mem_range.mp hi) hm
  refine hfits.eq_of_read_eq (Memory.fits_ofNat nw n) fun i hi => ?_
  rw [Memory.read_storeNat n hm.1 (.inl (List.mem_range.mpr hi)), Memory.read_ofNat, if_pos hi, natWord]

theorem runs_wrOperand (o : Operand) {s : State} (hb : s.status.busy = false) (hnw : s.rsaNw ≤ 1024) {i : Nat}
    (hi : i < s.rsaNw) (v : Word) :
    Runs [wr (o.reg i) v] s ((o.set s ((o.get s).write i v)).respond .written) := by
  have h := Runs.write hnw (o.mapped_reg hi) v
  rwa [s.writeReg_input (o.isInput_reg i), hb, if_neg Bool.false_ne_true, o.storeInput_reg] at h

theorem runs_map_wrOperand (o : Operand) (n : Nat) {is : List Nat} {s : State} (hb : s.status.busy = false)
    (hnw : s.rsaNw ≤ 1024) (his : ∀ i ∈ is, i < s.rsaNw) :
    ∃ rs, Runs (is.map fun i => wr (o.reg i) (natWord n i)) s
      ((o.set s ((o.get s).storeNat n is)).setResponses rs) := by
  induction is generalizing s with
  | nil => exact ⟨s.responses, by rw [Memory.storeNat, List.foldl_nil, o.set_get]; exact Runs.nil s⟩
  | cons i is ih =>
    rw [List.forall_mem_cons] at his
    obtain ⟨hi, his⟩ := his
    have hfirst := runs_wrOperand o hb hnw hi (natWord n i)
    obtain ⟨rs, h⟩ := ih (s := (o.set s ((o.get s).write i (natWord n i))).respond .written) (by simpa) (by simpa)
      (by simpa)
    rw [o.get_set_respond, o.set_respond_set] at h
    exact ⟨rs, Runs.cons hfirst h⟩

/-- `ldop` loads the integer (30_encoding.md R88). -/
theorem runs_ldop (o : Operand) (n : Nat) {s : State} (hb : s.status.busy = false) (hnw : s.rsaNw ≤ 1024)
    (hfits : (o.get s).fits s.rsaNw) :
    ∃ rs, Runs (ldop s.rsaNw o.reg n) s ((o.set s (Memory.ofNat s.rsaNw n)).setResponses rs) := by
  rw [← Memory.storeNat_range n hfits]
  exact runs_map_wrOperand o n hb hnw fun i hi => List.mem_range.mp hi

/-! ### RES read back -/

theorem runs_rdRes {s : State} (hb : s.status.busy = false) (hnw : s.rsaNw ≤ 1024) {i : Nat} (hi : i < s.rsaNw) :
    Runs [rd (.res i)] s (s.respond (.data (s.res.read i))) := by
  have h := Runs.access s ⟨Reg.offset (.res i), .bytes 4, .read⟩
  rwa [State.handleAccess_read_value (r := .res i) hnw (decide_eq_true hi) (.inl hb) rfl] at h

theorem runs_map_rdRes {is : List Nat} {s : State} (hb : s.status.busy = false) (hnw : s.rsaNw ≤ 1024)
    (his : ∀ i ∈ is, i < s.rsaNw) :
    Runs (is.map fun i => rd (.res i)) s
      (s.setResponses ((is.map fun i => .data (s.res.read i)).reverse ++ s.responses)) := by
  induction is generalizing s with
  | nil => exact Runs.nil s
  | cons i is ih =>
    rw [List.forall_mem_cons] at his
    have hrest := ih (s := s.respond (.data (s.res.read i))) hb hnw his.2
    rw [List.map_cons, List.map_cons, List.reverse_cons, List.append_assoc]
    exact Runs.cons (runs_rdRes hb hnw his.1) hrest

/-- `rdop RES` answers the words of RES, in order, and changes nothing else (30_encoding.md R88). -/
theorem runs_rdop_res {s : State} (hb : s.status.busy = false) (hnw : s.rsaNw ≤ 1024) :
    ∃ rs, Runs (rdop s.rsaNw .res) s (s.setResponses rs) ∧
      rs.take s.rsaNw = ((List.range s.rsaNw).map fun i => .data (s.res.read i)).reverse :=
  ⟨_, runs_map_rdRes hb hnw fun i hi => List.mem_range.mp hi, List.take_left' (by simp)⟩

/-! ### MODEXP, DIGEST_TO_BASE and CMP_DIGEST -/

/-- The code with which MODEXP rejects its operands (41_modexp.md R132). -/
theorem modexpExec_rejected (mm : Nat → Nat → Nat → Nat) {s : State}
    (h : s.mod.val % 2 = 0 ∨ s.mod.val ≤ s.base.val) :
    ∃ e, modexpExec mm s = .error e ∧
      e.code = if s.mod.val = 0 then 3 else if s.mod.val % 2 = 0 then 4 else 5 := by
  split_ifs with h0 heven
  · exact ⟨_, modexpExec_of_zero h0, rfl⟩
  · exact ⟨_, modexpExec_of_even h0 heven, rfl⟩
  · exact ⟨_, modexpExec_of_le (by omega) (h.resolve_left heven), rfl⟩

/-- MODEXP has completed on the operands `v`, `e` and `n`, and the host's wait for it has ended in `t`; RES and the
sticky ERR before it, H, LEN and MSG are those of `s` (41_modexp.md R132). -/
structure Exponentiated (s : State) (v e n : Nat) (t : State) : Prop where
  idle : t.idle
  lastRead : t.responses.head? = some (.data t.status.word)
  h : t.h = s.h
  len : t.len = s.len
  msg : t.msg = s.msg
  rsaNw : t.rsaNw = s.rsaNw
  base : t.base.val = v
  /-- MOD odd and BASE below it. -/
  accepted : n % 2 = 1 → v < n →
    t.status.err = s.status.err ∧ t.res.val = modExpSeq Config.mm s.rsaNw v e n ∧ t.status.errcode = 0
  /-- Any other operands. -/
  rejected : n % 2 = 0 ∨ n ≤ v →
    t.status.err = true ∧ t.res = s.res ∧ t.status.errcode = if n = 0 then 3 else if n % 2 = 0 then 4 else 5

/-- ERR is set after MODEXP if it was set before or MODEXP rejected its operands. -/
theorem Exponentiated.err_true {s t : State} {v e n : Nat} (h : Exponentiated s v e n t)
    (hstop : s.status.err = true ∨ n % 2 = 0 ∨ n ≤ v) : t.status.err = true := by
  by_cases hrej : n % 2 = 0 ∨ n ≤ v
  · exact (h.rejected hrej).1
  · rw [(h.accepted (by omega) (by omega)).1]
    exact hstop.resolve_right hrej

theorem Exponentiated.lastReadBit_false {s t : State} {v e n : Nat} (h : Exponentiated s v e n t)
    (herr : s.status.err = false) (hodd : n % 2 = 1) (hlt : v < n) : t.lastReadBit 2 = false := by
  rw [State.lastReadBit_err h.lastRead, (h.accepted hodd hlt).1, herr]

/-- MODEXP issued to an idle block and waited for. -/
theorem runs_modexp {s : State} (hs : s.idle) (polls : Nat) :
    ∃ t, Runs (cmdWait .modexp polls) s t ∧ Exponentiated s s.base.val s.exp.val s.mod.val t := by
  obtain ⟨rs, -, hruns⟩ := Runs.cmdWait hs.1 .modexp rfl polls
  refine ⟨_, hruns, ?_⟩
  by_cases hrej : s.mod.val % 2 = 0 ∨ s.mod.val ≤ s.base.val
  · obtain ⟨err, herr, hcode⟩ := modexpExec_rejected Config.mm (s := s.accept (encode .modexp)) hrej
    rw [commandExec, herr]
    exact ⟨⟨rfl, rfl⟩, rfl, rfl, rfl, rfl, rfl, rfl, by omega, fun _ => ⟨rfl, rfl, hcode⟩⟩
  · have hok := modexpExec_of_lt (mm := Config.mm) (s := s.accept (encode .modexp)) (show s.mod.val % 2 = 1 by omega)
      (show s.base.val < s.mod.val by omega)
    rw [commandExec, hok]
    exact ⟨⟨rfl, rfl⟩, rfl, rfl, rfl, rfl, rfl, rfl, fun _ _ => ⟨rfl, Memory.val_ofNat (modExpSeq_lt ..), rfl⟩,
      fun h => absurd h hrej⟩

/-- MODEXP with EXP and MOD loaded first: the last stage of `sign` (41_modexp.md R135). -/
theorem runs_ldop_modexp {s : State} (hs : s.idle) (hfits : s.OperandsFit) (polls : Nat) {e n : Nat}
    (he : e < 2 ^ (32 * s.rsaNw)) (hn : n < 2 ^ (32 * s.rsaNw)) :
    ∃ t, Runs (ldop s.rsaNw .exp e ++ ldop s.rsaNw .mod n ++ cmdWait .modexp polls) s t ∧
      Exponentiated s s.base.val e n t := by
  obtain ⟨rs, hexp⟩ := runs_ldop .exp e hs.1 hfits.widthHigh hfits.exp
  obtain ⟨rs', hmod⟩ := runs_ldop .mod n (s := (s.setExp (Memory.ofNat s.rsaNw e)).setResponses rs) hs.1
    hfits.widthHigh hfits.mod
  obtain ⟨t, ht, hdone⟩ := runs_modexp (s := (((s.setExp (Memory.ofNat s.rsaNw e)).setResponses rs).setMod
    (Memory.ofNat s.rsaNw n)).setResponses rs') hs polls
  refine ⟨t, (hexp.append hmod).append ht, ?_⟩
  have hev : (Memory.ofNat s.rsaNw e).val = e := Memory.val_ofNat he
  have hnv : (Memory.ofNat s.rsaNw n).val = n := Memory.val_ofNat hn
  simp only [State.setResponses_exp, State.setMod_exp, State.setExp_exp, State.setResponses_mod, State.setMod_mod, hev,
    hnv] at hdone
  exact { hdone with }

/-- The stage of MODEXP with all three operands loaded first (41_modexp.md R135). -/
theorem runs_modexpStage {s : State} (hs : s.idle) (hfits : s.OperandsFit) (polls : Nat) {v e n : Nat}
    (hv : v < 2 ^ (32 * s.rsaNw)) (he : e < 2 ^ (32 * s.rsaNw)) (hn : n < 2 ^ (32 * s.rsaNw)) :
    ∃ t, Runs (modexpStage s.rsaNw polls v e n) s t ∧ Exponentiated s v e n t := by
  obtain ⟨rs, hbase⟩ := runs_ldop .base v hs.1 hfits.widthHigh hfits.base
  obtain ⟨t, ht, hdone⟩ := runs_ldop_modexp (s := (s.setBase (Memory.ofNat s.rsaNw v)).setResponses rs) hs
    { hfits with base := Memory.fits_ofNat _ _ } polls he hn
  have hvv : (Memory.ofNat s.rsaNw v).val = v := Memory.val_ofNat hv
  simp only [State.setResponses_base, State.setBase_base, hvv] at hdone
  refine ⟨t, ?_, { hdone with }⟩
  have hruns := hbase.append ht
  rwa [← List.append_assoc, ← List.append_assoc] at hruns

/-- DIGEST_TO_BASE issued to an idle block and waited for (41_modexp.md R133). -/
theorem runs_digestToBase {s : State} (hs : s.idle) (hfits : s.OperandsFit) (polls : Nat) :
    ∃ t, Runs (cmdWait .digestToBase polls) s t ∧ t.idle ∧ t.responses.head? = some (.data t.status.word) ∧
      t.status.err = s.status.err ∧ t.OperandsFit ∧ t.rsaNw = s.rsaNw ∧ t.base.val = digestValue s.h ∧
      t.res = s.res := by
  obtain ⟨rs, -, hruns⟩ := Runs.cmdWait hs.1 .digestToBase rfl polls
  exact ⟨_, hruns, ⟨rfl, rfl⟩, rfl, rfl, { hfits with base := fits_digestWords hfits.widthLow s.h }, rfl,
    val_digestWords s.h, rfl⟩

/-- CMP_DIGEST issued to an idle block and waited for (41_modexp.md R134). -/
theorem runs_cmpDigest {s : State} (hs : s.idle) (polls : Nat) :
    ∃ t, Runs (cmdWait .cmpDigest polls) s t ∧ t.idle ∧ t.responses.head? = some (.data t.status.word) ∧
      t.status.err = s.status.err ∧ t.status.errcode = 0 ∧
      t.status.cmpMatch = decide (s.res.val = digestValue s.h) := by
  obtain ⟨rs, -, hruns⟩ := Runs.cmdWait hs.1 .cmpDigest rfl polls
  exact ⟨_, hruns, ⟨rfl, rfl⟩, rfl, rfl, rfl, rfl⟩

end Sys2Proof.Machine
end

section
/-! PROOFS. The source's operations as the host runs them (spec/41_modexp.md R135). -/

namespace Sys2Proof.Machine

/-- Settles O51: its one stage completes MODEXP, and the host stops there or reads RES back. -/
theorem encryptSequenceLeavesTheResult : Obligations.EncryptSequenceLeavesTheResult := by
  unfold Obligations.EncryptSequenceLeavesTheResult
  intro s polls v e n hs hidle hv he hn
  obtain ⟨t, ht, hdone⟩ := runs_modexpStage hidle hs.operandsFit polls hv he hn
  refine ⟨rfl, rfl, fun herr hodd hlt => ?_, fun hstop => ?_⟩
  · obtain ⟨rs, hread, hwords⟩ := runs_rdop_res hdone.idle.1 (hdone.rsaNw ▸ hs.widthHigh)
    rw [hdone.rsaNw] at hread hwords
    obtain ⟨hrun, hevents⟩ := HostSequence.run_completed (q := encryptBlock s.rsaNw polls v e n)
      (.one ht (hdone.lastReadBit_false herr hodd hlt)) hread
    obtain ⟨-, hres, hcode⟩ := hdone.accepted hodd hlt
    exact ⟨_, hrun, hevents, hres, hcode, hdone.idle, rfl, hdone.h, hdone.len, hdone.msg, hwords⟩
  · have herr := hdone.err_true hstop
    obtain ⟨hrun, -⟩ := HostSequence.run_stopped (q := encryptBlock s.rsaNw polls v e n) (ls := []) rfl (.nil s) ht
      ((State.lastReadBit_err hdone.lastRead).trans herr)
    exact ⟨_, hrun, ht.runEvents, herr, hdone.idle, rfl, hdone.h, hdone.len, hdone.msg,
      fun hrej => (hdone.rejected hrej).2⟩

theorem Hashed.operandsFit {s t : State} {c : Vector Word 5} {l : Nat} (h : Hashed s c l t) (hs : s.OperandsFit) :
    t.OperandsFit where
  widthLow := h.rsaNw ▸ hs.widthLow
  widthHigh := h.rsaNw ▸ hs.widthHigh
  base := by rw [h.base, h.rsaNw]; exact hs.base
  exp := by rw [h.exp, h.rsaNw]; exact hs.exp
  mod := by rw [h.mod, h.rsaNw]; exact hs.mod
  res := by rw [h.res, h.rsaNw]; exact hs.res

/-- The stages of `sign(m)` before MODEXP's. -/
def signDigestStages (polls : Nat → Nat) (p : Nat) (m : List Byte) : List (List Event) :=
  shaStages polls m ++ [cmdWait .digestToBase p]

/-- The last stage of `sign(m)`. -/
def signModexpStage (nw q e n : Nat) : List Event := ldop nw .exp e ++ ldop nw .mod n ++ cmdWait .modexp q

theorem sign_stages (polls : Nat → Nat) (nw p q : Nat) (m : List Byte) (e n : Nat) :
    (sign polls nw p q m e n).stages = signDigestStages polls p m ++ [signModexpStage nw q e n] := by
  simp [sign, signDigestStages, signModexpStage]

/-- With ERR = 0 the host goes through the stages of `sign(m)` before MODEXP's, and MODEXP finds the digest of `m` in
BASE. -/
theorem stagesGo_sign {s : State} (hs : s.idle) (hfits : s.OperandsFit) (herr : s.status.err = false)
    {m : List Byte} (hlen : 8 * m.length ≤ maxLen) (polls : Nat → Nat) (p q : Nat) {e n : Nat}
    (he : e < 2 ^ (32 * s.rsaNw)) (hn : n < 2 ^ (32 * s.rsaNw)) :
    ∃ t u, StagesGo (signDigestStages polls p m) s t ∧ Runs (signModexpStage s.rsaNw q e n) t u ∧
      Exponentiated t (digestValue (sha1 m)) e n u ∧ t.status.err = false ∧ t.rsaNw = s.rsaNw ∧ t.res = s.res := by
  obtain ⟨r, hr, hhash⟩ := stagesGo_sha hs herr hlen polls
  obtain ⟨t, ht, hidle, hread, hterr, htfits, htnw, hbase, hres⟩ :=
    runs_digestToBase hhash.idle (hhash.operandsFit hfits) p
  have herr' : t.status.err = false := hterr.trans (hhash.err.trans herr)
  have hnw : t.rsaNw = s.rsaNw := htnw.trans hhash.rsaNw
  obtain ⟨u, hu, hdone⟩ := runs_ldop_modexp hidle htfits q (hnw ▸ he) (hnw ▸ hn)
  rw [hbase, hhash.h] at hdone
  rw [hnw] at hu
  exact ⟨t, u, hr.append (.one ht ((State.lastReadBit_err hread).trans herr')), hu, hdone, herr', hnw,
    hres.trans hhash.res⟩

/-- A `sign` that begins with ERR = 1 stops at SHA_INIT's wait, which leaves ERR, MSG and the operands (30_encoding.md
R88; 40_sha1.md R106). -/
theorem sign_stops_at_shaInit {s : State} (hidle : s.idle) (herr : s.status.err = true) (polls : Nat → Nat)
    (nw p q e n : Nat) (m : List Byte) :
    ∃ t, (sign polls nw p q m e n).run s = .next (.stopped t) ∧
      s.runEvents (cmdWait .shaInit (polls 0)) = .next t ∧
      t.status.err = true ∧ t.idle ∧ t.events = s.events ∧ t.msg = s.msg ∧ t.base = s.base ∧ t.exp = s.exp ∧
      t.mod = s.mod ∧ t.res = s.res := by
  obtain ⟨rs, -, ht⟩ := Runs.cmdWait hidle.1 .shaInit rfl (polls 0)
  obtain ⟨hrun, -⟩ := HostSequence.run_stopped (q := sign polls nw p q m e n) (ls := []) rfl (.nil s) ht
    ((State.lastReadBit_err rfl).trans herr)
  exact ⟨_, hrun, ht.runEvents, herr, ⟨rfl, rfl⟩, rfl, rfl, rfl, rfl, rfl, rfl⟩

/-- Settles O52: the hash, DIGEST_TO_BASE and MODEXP, each of which leaves what the next one needs. -/
theorem signSequenceSignsTheDigest : Obligations.SignSequenceSignsTheDigest := by
  unfold Obligations.SignSequenceSignsTheDigest
  intro s polls p q e n m hs hidle hlen he hn
  refine ⟨fun herr hodd hlt => ?_, fun herr => sign_stops_at_shaInit hidle herr polls _ p q e n m,
    fun herr hrej => ?_⟩
  · obtain ⟨t, u, ht, hu, hdone, hterr, hnw, -⟩ := stagesGo_sign hidle hs.operandsFit herr hlen polls p q he hn
    have hunw : u.rsaNw = s.rsaNw := hdone.rsaNw.trans hnw
    obtain ⟨rs, hread, hwords⟩ := runs_rdop_res hdone.idle.1 (hunw ▸ hs.widthHigh)
    rw [hunw] at hread hwords
    have hstages : StagesGo (sign polls s.rsaNw p q m e n).stages s u :=
      sign_stages polls .. ▸ ht.append (.one hu (hdone.lastReadBit_false hterr hodd hlt))
    obtain ⟨hrun, hevents⟩ := HostSequence.run_completed hstages hread
    obtain ⟨-, hres, hcode⟩ := hdone.accepted hodd hlt
    exact ⟨_, hrun, hevents, hnw ▸ hres, hcode, hdone.idle, rfl, hwords⟩
  · obtain ⟨t, u, ht, hu, hdone, -, -, htres⟩ := stagesGo_sign hidle hs.operandsFit herr hlen polls p q he hn
    obtain ⟨huerr, hres, hcode⟩ := hdone.rejected hrej
    obtain ⟨hrun, hevents⟩ := HostSequence.run_stopped (sign_stages polls ..) ht hu
      ((State.lastReadBit_err hdone.lastRead).trans huerr)
    rw [← sign_stages] at hevents
    exact ⟨_, hrun, hevents, huerr, hdone.idle, rfl, hdone.base, hres.trans htres, hcode⟩

/-- Settles O53: MODEXP first; only where its wait finds ERR = 0 the hash and CMP_DIGEST. -/
theorem verifySequenceSetsMatch : Obligations.VerifySequenceSetsMatch := by
  unfold Obligations.VerifySequenceSetsMatch
  intro s polls p q signature e n m hs hidle hlen hv he hn
  obtain ⟨t, ht, hdone⟩ := runs_modexpStage hidle hs.operandsFit p hv he hn
  refine ⟨fun herr hodd hlt => ?_, fun hstop => ?_⟩
  · obtain ⟨herr', hres, -⟩ := hdone.accepted hodd hlt
    obtain ⟨u, hu, hhash⟩ := stagesGo_sha hdone.idle (herr'.trans herr) hlen polls
    obtain ⟨w, hw, hwidle, hwread, hwerr, hwcode, hwmatch⟩ := runs_cmpDigest hhash.idle q
    have hwbit : w.lastReadBit 2 = false := by
      rw [State.lastReadBit_err hwread, hwerr, hhash.err, herr', herr]
    have hstages : StagesGo (verify polls s.rsaNw p q signature e n m).stages s w :=
      .cons ht (hdone.lastReadBit_false herr hodd hlt) (hu.append (.one hw hwbit))
    obtain ⟨hrun, hevents⟩ := HostSequence.run_completed hstages (Runs.readStatus w)
    refine ⟨_, hrun, hevents, ?_, rfl, hwcode, hwidle, rfl⟩
    rw [hhash.res, hres, hhash.h] at hwmatch
    rw [verifyReport, State.lastReadBit_of_head? (v := w.status.word) rfl, Status.word_match, hwmatch,
      decide_eq_true_iff]
  · have herr := hdone.err_true hstop
    obtain ⟨hrun, -⟩ := HostSequence.run_stopped (q := verify polls s.rsaNw p q signature e n m) (ls := []) rfl (.nil s)
      ht ((State.lastReadBit_err hdone.lastRead).trans herr)
    exact ⟨_, hrun, ht.runEvents, rfl, herr, hdone.idle, rfl, hdone.h, hdone.len, hdone.msg,
      fun hrej => (hdone.rejected hrej).2⟩

end Sys2Proof.Machine
end

section
/-! PROOFS. Exceptional events: no step stops the block, a command error is recorded in STATUS alone and with which
code, and a host write before or after a completion (spec/60_exceptions.md R145 to R148, R150, R153). -/

namespace Sys2Proof.Machine

/-! ### No step stops -/

theorem engineTurn_next (s : State) : ∃ t, engineTurn s = .next t := by
  obtain ⟨-, h⟩ | ⟨_, _, -, -, h⟩ | ⟨_, _, -, -, h⟩ := engineTurn_cases s <;> exact ⟨_, h⟩

/-- Settles O9: only the engine's turn could stop, and it answers a next state with nothing, a legal or an illegal word
pending. -/
theorem everyStepGivesANextState : Obligations.EveryStepGivesANextState := by
  unfold Obligations.EveryStepGivesANextState
  intro s
  obtain ⟨-, h⟩ | ⟨es, -, h⟩ | ⟨a, es, -, h⟩ | ⟨es, -, h⟩ := step_cases s
  · exact h ▸ engineTurn_next s
  · exact h ▸ engineTurn_next (s.setEvents es)
  · exact ⟨_, h⟩
  · exact ⟨_, h⟩

/-! ### Command errors -/

/-- A completion with a nonzero code is the one of an error, which touches STATUS and PEND alone (60_exceptions.md
R146). -/
theorem State.complete_of_errcode_ne_zero {s : State} {r : Except CmdError State}
    (h : (s.complete r).status.errcode ≠ 0) :
    s.complete r = { s with
      pend := none,
      status := { s.status with
        busy := false, done := true, err := true, errcode := (s.complete r).status.errcode } } := by
  obtain ⟨e, -, he⟩ | ⟨t, -, ht⟩ := s.complete_cases r
  · rw [he]
    rfl
  · rw [ht] at h
    exact absurd rfl h

/-- Settles O12: the completion of an error, and for an illegal word the one with ILLEGAL_CMD. -/
theorem commandErrorsChangeOnlyStatus : Obligations.CommandErrorsChangeOnlyStatus := by
  unfold Obligations.CommandErrorsChangeOnlyStatus
  refine fun s => ⟨fun i t ht hcode => ?_, fun cw e t hd ht => ?_⟩
  · obtain rfl := exec_next ht
    exact State.complete_of_errcode_ne_zero hcode
  · rw [runWord, hd] at ht
    exact (Host.Outcome.next.inj ht).symm

/-- The code of a command whose one check is that the new length `l` fits LEN (40_sha1.md R107, R108). -/
theorem State.complete_lengthCheck_errcode (s t : State) (l : Nat) :
    (s.complete (if l > maxLen then .error .lenOvf else .ok t)).status.errcode =
      if 2 ^ 64 - 1 < l then 2 else 0 := by
  rw [maxLen]
  split_ifs <;> rfl

/-- The code of MODEXP, by the first check that holds (60_exceptions.md R148). -/
theorem State.complete_modexpExec_errcode (mm : Nat → Nat → Nat → Nat) (s : State) :
    (s.complete (modexpExec mm s)).status.errcode =
      if s.mod.val = 0 then 3
      else if s.mod.val % 2 = 0 then 4
      else if s.mod.val ≤ s.base.val then 5 else 0 := by
  rw [modexpExec]
  split_ifs <;> rfl

/-- Settles O13: the commands without a check succeed, and the others answer by their checks. -/
theorem eachCommandHasItsOwnErrorCodes : Obligations.EachCommandHasItsOwnErrorCodes := by
  unfold Obligations.EachCommandHasItsOwnErrorCodes
  intro i s t ht
  obtain rfl := exec_next ht
  cases i with
  | shaInit | shaCompress | digestToBase | cmpDigest => rfl
  | shaBlock => rw [commandExec, shaBlockExec, s.complete_lengthCheck_errcode]
  | shaFinal nb => rw [commandExec, shaFinalExec, s.complete_lengthCheck_errcode]
  | modexp => exact s.complete_modexpExec_errcode Config.mm

/-! ### A write and a completion in either order -/

section WriteAndCompletion

variable {s : State} {cw : Word} {i : Instr} {r : Reg}

/-- The write of an input word first: it is dropped, and the command completes as without it but for OVR. -/
theorem runs_writeInput_engine (hnw : s.rsaNw ≤ 1024) (hmapped : r.mapped s.rsaNw = true) (hinput : r.isInput = true)
    (hb : s.status.busy = true) (hp : s.pend = some cw) (hd : decode cw = .ok i) (v : Word) :
    Runs [wr r v, .engine] s
      ((s.complete (commandExec i s)).overrun.setResponses (.written :: s.responses)) := by
  have hwrite := Runs.write hnw hmapped v
  rw [s.writeReg_input hinput, if_pos hb] at hwrite
  have hturn := Runs.engine (s := s.overrun.setResponses (.written :: s.responses)) hp hd
  rw [complete_setResponses, complete_overrun] at hturn
  exact hwrite.cons hturn

/-- The completion first: the write of an input word then finds the block idle and is performed. -/
theorem runs_engine_writeInput (hnw : s.rsaNw ≤ 1024) (hmapped : r.mapped s.rsaNw = true) (hinput : r.isInput = true)
    (hp : s.pend = some cw) (hd : decode cw = .ok i) (v : Word) :
    Runs [.engine, wr r v] s
      (((s.complete (commandExec i s)).storeInput r v).setResponses (.written :: s.responses)) := by
  obtain ⟨hidle, -, -⟩ := s.complete_idle (commandExec i s)
  obtain ⟨-, hresponses, -, hwidth⟩ := complete_commandExec_pins i s
  have hwrite := Runs.write (hwidth ▸ hnw) (hwidth ▸ hmapped) v
  rw [State.writeReg_input _ hinput, hidle, State.respond] at hwrite
  simp only [Bool.false_eq_true, if_false, State.storeInput_responses, hresponses] at hwrite
  exact (Runs.engine hp hd).cons hwrite

end WriteAndCompletion

/-- Settles O60: the two orders as runs, with nothing behind them at the pins. -/
theorem writeAndCompletionInEitherOrder : Obligations.WriteAndCompletionInEitherOrder := by
  unfold Obligations.WriteAndCompletionInEitherOrder
  intro s cw i k v hnw hb hp hd
  have hcomplete : exec i (s.setEvents []) = .next ((s.complete (commandExec i s)).setEvents []) := by
    rw [exec_eq, complete_setEvents]
  exact ⟨_, hcomplete, runs_writeInput_engine (r := .h k) hnw rfl rfl hb hp hd v [],
    runs_engine_writeInput (r := .h k) hnw rfl rfl hp hd v []⟩

end Sys2Proof.Machine
end

section
/-! PROOFS. The reset state: its values after each source of a reset, and that it has the invariant
(spec/70_reset_and_hazards.md R165 to R168; 00_scope.md R7). -/

namespace Sys2Proof.Machine

/-! ### The reset values -/

/-- PARAM is the low 16 bits of the width, zero-extended, whatever the width (10_state.md R26). -/
theorem State.paramWord_eq_mod (s : State) : s.paramWord = BitVec.ofNat 32 (s.rsaNw % 2 ^ 16) := by
  apply BitVec.eq_of_toNat_eq
  simp only [State.paramWord, BitVec.toNat_setWidth, BitVec.toNat_ofNat]

/-- Settles O54: either reset is one step, the event's own or the write of CTRL with bit 1 set, and the registers'
words are those of the reset state. -/
theorem bothResetsGiveTheResetValues : Obligations.BothResetsGiveTheResetValues := by
  unfold Obligations.BothResetsGiveTheResetValues
  refine ⟨fun _ => rfl, rfl, fun s es => ⟨fun hreset => ?_, fun v hv hwrite => ?_, Memory.read_nil,
    State.irq_of_not_done rfl, State.ctrlWord_eq _, rfl, State.paramWord_eq_mod _⟩⟩
  · rw [step_events_cons hreset]
    rfl
  · obtain ⟨-, hsoft⟩ := ctrlWriteSetsIeOrResets (s.setEvents es) v
    rw [step_events_cons hwrite, handleEvent, hsoft hv]
    rfl

/-! ### The reset state has the invariant -/

theorem State.operandsFit_resetOf {nw : Nat} (hlow : 5 ≤ nw) (hhigh : nw ≤ 1024) : (State.resetOf nw).OperandsFit where
  widthLow := hlow
  widthHigh := hhigh
  base := Memory.fits_nil nw
  exp := Memory.fits_nil nw
  mod := Memory.fits_nil nw
  res := Memory.fits_nil nw

/-- A reset forgets the flags and PEND, so only the operands matter: it gives what it gives after a success, where the
invariant holds. -/
theorem State.OperandsFit.inv_resetBlock {s : State} (hs : s.OperandsFit) : s.resetBlock.Inv :=
  hs.inv_succeed.resetBlock

/-- The reset state is the reset of itself. -/
theorem State.inv_resetOf {nw : Nat} (hlow : 5 ≤ nw) (hhigh : nw ≤ 1024) : (State.resetOf nw).Inv :=
  (State.operandsFit_resetOf hlow hhigh).inv_resetBlock

/-- The instance's width is an admitted one, whichever it is (00_scope.md R7). -/
theorem rsaNw_bounds : 5 ≤ Config.rsaNw ∧ Config.rsaNw ≤ 1024 := by
  have hlt : Config.rsaNwAboveFive.val < 1020 := Config.rsaNwAboveFive.isLt
  rw [Config.rsaNw]
  omega

/-- Settles O56: `State.reset` is the reset state of one of the admitted widths. -/
theorem resetHasTheInvariant : Obligations.ResetHasTheInvariant := by
  unfold Obligations.ResetHasTheInvariant
  obtain ⟨hlow, hhigh⟩ := rsaNw_bounds
  exact ⟨fun _ => State.inv_resetOf, State.inv_resetOf hlow hhigh⟩

end Sys2Proof.Machine
end
